-- ==== Sys2Proof/Word.lean ====
section
/-! DEFINITION. The machine's words: 32-bit patterns, bytes and register numbers (spec 00_scope.md R7, R9, R10). -/

namespace Sys2Proof

/-- A 32-bit pattern: a register value, an address, an instruction word (R7, R10). `u(v)` of the spec is `v.toNat`,
`s(v)` is `v.toInt` (two's complement: log 25), `trunc32(n)` is `BitVec.ofNat 32 n` or `BitVec.ofInt 32 n`. -/
abbrev Word := BitVec 32

/-- One byte of memory (R37). -/
abbrev Byte := BitVec 8

/-- A 5-bit register number, 0 to 31: every value names a register (10_state.md R20, R22; 60_exceptions.md R233). -/
abbrev RegIdx := BitVec 5

end Sys2Proof
end

