-- ==== Sys2Proof/Config.lean ====
section
/-! DEFINITION. The parameters the spec gives the model (00_scope.md R8; the table at the end of 92_eei_decisions.md) as plain
data, and the one free value. Their default values stand in Decode.lean (OPMAP, REGNUM) and Machine/Defaults.lean. -/

namespace Sys2Proof

/-- OPMAP: the 6-bit `OP` value of each of the 22 operations (30_encoding.md R95). Any injective map is consistent with
the source; the default is `defaultOpMap`. Log 7. -/
structure OpMap where
  lw : BitVec 6
  ls : BitVec 6
  lb : BitVec 6
  stw : BitVec 6
  sts : BitVec 6
  stb : BitVec 6
  inc : BitVec 6
  dec : BitVec 6
  add : BitVec 6
  sub : BitVec 6
  mul : BitVec 6
  and : BitVec 6
  or : BitVec 6
  xor : BitVec 6
  not : BitVec 6
  shiftl : BitVec 6
  shiftr : BitVec 6
  shiftrs : BitVec 6
  j : BitVec 6
  cmp : BitVec 6
  cmpu : BitVec 6
  branch : BitVec 6
deriving DecidableEq, Repr

/-- The names of the 32 registers (10_state.md R20, R21): `r0` to `r29`, `fp`, `sp`. -/
inductive RegName where
  | r (n : Fin 30)
  | fp
  | sp
deriving DecidableEq, Repr

/-- REGNUM: the number of each register name (10_state.md R21; D2). It names numbers and nothing else: no rule of the machine
reads it. Log 8. -/
structure RegNum where
  r : Vector RegIdx 30
  fp : RegIdx
  sp : RegIdx
deriving DecidableEq, Repr

/-- BYTE_ORDER: the order of the bytes of a cell, for data and fetch alike (20_memory.md R50). Log 9. -/
inductive ByteOrder where
  | little
  | big
deriving DecidableEq, Repr

/-- The four instructions that write the flag `o` (10_state.md R33; 40_arithmetic.md R120). -/
inductive OverflowOp where
  | add
  | inc
  | dec
  | mul
deriving DecidableEq, Repr

/-- OVERFLOW_RULE: the value of `o` after `add inc dec mul` (40_arithmetic.md R120): `unsigned`, `signed`, or any other function
of (operation, a, b), here the free value `Config.otherOverflow`. Log 11. -/
inductive OverflowRule where
  | unsigned
  | signed
  | other
deriving DecidableEq, Repr

/-- CMP_EZ: which of `e`, `z` means "equal" after a comparison (44_comparison.md R204). Log 12. -/
inductive CmpEZ where
  | swapped
  | literal
deriving DecidableEq, Repr

/-- SHIFT_OVER: what a shift amount of 32 or more does (41_bitwise.md R148). Log 13. -/
inductive ShiftOver where
  | allOut
  | mod32
deriving DecidableEq, Repr

/-- BRANCH_BASE: the address a relative branch adds its offset to (42_branching.md R160; D15). Log 14. -/
inductive BranchBase where
  | next
  | self
deriving DecidableEq, Repr

/-- A range of byte addresses, `base` to `base + size - 1`. -/
structure Region where
  base : Nat
  size : Nat
deriving DecidableEq, Repr

/-- The parameters of one machine. MEM_VALID (20_memory.md R56), a set of byte addresses, is a list of ranges. No instruction
changes a parameter. Log 1. -/
structure Params where
  opMap : OpMap
  byteOrder : ByteOrder
  memValid : List Region
  overflowRule : OverflowRule
  cmpEZ : CmpEZ
  shiftOver : ShiftOver
  branchBase : BranchBase
deriving DecidableEq, Repr

/-- A free value: the flag `o` under an OVERFLOW_RULE that is neither `unsigned` nor `signed` ("any function of (operation, a, b)",
92_eei_decisions.md, parameter table). It has no body: nothing can be proved of its values. For `inc` and `dec`, which have one
operand, `b` is 1. DESIGN CHOICE, log 11. -/
opaque Config.otherOverflow : OverflowOp → Word → Word → Bool

end Sys2Proof
end

