-- ==== Sys2Proof/Syntax.lean ====
section
/-! DEFINITION. The instruction set: one constructor of `Instr` per row of spec/opcode_table.json, with the operand forms of
the source's syntax lines (30_encoding.md R100, R102; 00_scope.md R13). The widths of the fields carry their ranges, so every term
is well formed: every register number and every immediate is valid (60_exceptions.md R233). -/

namespace Sys2Proof

/-- The operand written `rB|i15` (R13, R86): a register, or a 15-bit immediate. -/
inductive Src where
  | reg (rB : RegIdx)
  | imm (i15 : BitVec 15)
deriving DecidableEq, Repr

/-- The address operand `target` (45_memory_access.md R210): `rB`, or `rB[i15]`. -/
inductive Target where
  | base (rB : RegIdx)
  | disp (rB : RegIdx) (i15 : BitVec 15)
deriving DecidableEq, Repr

/-- The operand of `j`, written `rA|i20` (42_branching.md R161). -/
inductive JumpTo where
  | reg (r : RegIdx)
  | rel (i20 : BitVec 20)
deriving DecidableEq, Repr

/-- The operand of a conditional branch, written `rA|i16` (42_branching.md R162). -/
inductive BranchTo where
  | reg (r : RegIdx)
  | rel (i16 : BitVec 16)
deriving DecidableEq, Repr

/-- The 22 operations, one `OP` value each (00_scope.md R4, R14). -/
inductive Operation where
  | lw | ls | lb | stw | sts | stb
  | inc | dec | add | sub | mul
  | and | or | xor | not | shiftl | shiftr | shiftrs
  | j | cmp | cmpu | branch
deriving DecidableEq, Repr

/-- The twelve tests of the Conditional flags table (30_encoding.md R90). -/
inductive Test where
  | e | ne | z | nz | o | no | s | ns | l | ge | g | le
deriving DecidableEq, Repr

/-- The five instruction formats (30_encoding.md R80; the source's sentence that lists `C` twice is read as in 90_conflicts.md C1). -/
inductive Format where
  | R | C | S | I | A
deriving DecidableEq, Repr

/-- The instructions, in the order of the opcode table. `rA` is the destination and first source, or the data register of a
store; the operand of `j` and the branches is encoded in the field `R` (R100). -/
inductive Instr where
  | add (rA : RegIdx) (src : Src)
  | dec (rA : RegIdx)
  | inc (rA : RegIdx)
  | mul (rA : RegIdx) (src : Src)
  | sub (rA : RegIdx) (src : Src)
  | and (rA : RegIdx) (src : Src)
  | not (rA : RegIdx)
  | or (rA : RegIdx) (src : Src)
  | shiftl (rA : RegIdx) (src : Src)
  | shiftr (rA : RegIdx) (src : Src)
  | shiftrs (rA : RegIdx) (src : Src)
  | xor (rA : RegIdx) (src : Src)
  | j (dst : JumpTo)
  | be (dst : BranchTo)
  | bne (dst : BranchTo)
  | bz (dst : BranchTo)
  | bnz (dst : BranchTo)
  | bo (dst : BranchTo)
  | bno (dst : BranchTo)
  | bs (dst : BranchTo)
  | bns (dst : BranchTo)
  | bl (dst : BranchTo)
  | bge (dst : BranchTo)
  | bg (dst : BranchTo)
  | ble (dst : BranchTo)
  | cmp (rA : RegIdx) (src : Src)
  | cmpu (rA : RegIdx) (src : Src)
  | lw (rA : RegIdx) (target : Target)
  | ls (rA : RegIdx) (target : Target)
  | lb (rA : RegIdx) (target : Target)
  | stw (target : Target) (rA : RegIdx)
  | sts (target : Target) (rA : RegIdx)
  | stb (target : Target) (rA : RegIdx)
deriving DecidableEq, Repr

end Sys2Proof
end

