-- ==== Sys2Proof/WellFormed.lean ====
section
/-! DEFINITION. What makes a term meaningful. An `Instr` needs no check: the widths of its fields carry their ranges and every register
number and immediate is valid (60_exceptions.md R233). What can be ill formed is what an instruction is made from: a condition field
(R91), a written immediate (R104), and the parameters (R21, R40, R56, R95). -/

namespace Sys2Proof

/-- The condition field's flag selector is one of the table's six (30_encoding.md R90, R91): 6 and 7 are reserved. -/
def flagSelectorWf (F : BitVec 3) : Bool := F.toNat < 6

/-- A written integer fits an `N`-bit field that is sign-extended (30_encoding.md R104). -/
def fitsSigned (N : Nat) (v : Int) : Bool := -(2 ^ (N - 1) : Int) ≤ v && v < (2 ^ (N - 1) : Int)

/-- A written integer fits an `N`-bit field that is zero-extended (R104: `cmpu`). -/
def fitsUnsigned (N : Nat) (v : Int) : Bool := 0 ≤ v && v < (2 ^ N : Int)

/-- The 22 `OP` values of a map, in the order of its fields. -/
def OpMap.codes (m : OpMap) : List (BitVec 6) :=
  [m.lw, m.ls, m.lb, m.stw, m.sts, m.stb, m.inc, m.dec, m.add, m.sub, m.mul, m.and, m.or, m.xor, m.not,
    m.shiftl, m.shiftr, m.shiftrs, m.j, m.cmp, m.cmpu, m.branch]

/-- OPMAP is injective (30_encoding.md R8, R95): no two operations share an `OP` value. -/
def OpMap.wf (m : OpMap) : Bool := decide m.codes.Nodup

/-- The 32 numbers of a register naming, in the order `r0` to `r29`, `fp`, `sp`. -/
def RegNum.numbers (m : RegNum) : List RegIdx := m.r.toList ++ [m.fp, m.sp]

/-- REGNUM is a bijection with 0 to 31 (92_eei_decisions.md, parameter table): 32 names with 32 different numbers. -/
def RegNum.wf (m : RegNum) : Bool := decide m.numbers.Nodup

/-- A range of MEM_VALID lies in the 32-bit address space (20_memory.md R56, R57). -/
def Region.wf (r : Region) : Bool := r.base + r.size ≤ 2 ^ 32

/-- The parameters are a legal choice: OPMAP injective, MEM_VALID a set of 32-bit addresses. -/
def Params.wf (p : Params) : Bool := p.opMap.wf && p.memValid.all Region.wf

/-- RESET_PC is a multiple of 4 (10_state.md R40; 70_reset_and_hazards.md R271). -/
def resetPcWf (pc : Word) : Bool := pc.toNat % 4 == 0

end Sys2Proof
end

