-- ==== Sys2Proof/Decode.lean ====
section
/-! DEFINITION. Instruction words: the bit layout of the five formats (30_encoding.md R81 to R85), the byte order of a cell
(20_memory.md R50), the OPMAP (R95), the decoder (R97) and the encoder, and the assembler's notation of operands (R101 to R104). -/

namespace Sys2Proof

/-! ## The five formats -/

/-- The fields of an R-format word (R81). -/
structure RFields where
  i15 : BitVec 15
  I : BitVec 1
  rB : RegIdx
  rA : RegIdx
  op : BitVec 6
deriving DecidableEq, Repr

/-- The fields of a C-format word (R82; the widths by 90_conflicts.md C5). -/
structure CFields where
  i16 : BitVec 16
  I : BitVec 1
  V : BitVec 1
  F : BitVec 3
  r : RegIdx
  op : BitVec 6
deriving DecidableEq, Repr

/-- The fields of an S-format word (R83); there is no immediate flag (90_conflicts.md C4). No instruction uses it. -/
structure SFields where
  i12 : BitVec 12
  V : BitVec 1
  F : BitVec 3
  rB : RegIdx
  rA : RegIdx
  op : BitVec 6
deriving DecidableEq, Repr

/-- The fields of an I-format word (R84). -/
structure IFields where
  i20 : BitVec 20
  I : BitVec 1
  r : RegIdx
  op : BitVec 6
deriving DecidableEq, Repr

/-- The fields of an A-format word (R85). No instruction uses it. -/
structure AFields where
  unused : BitVec 11
  rC : RegIdx
  rB : RegIdx
  rA : RegIdx
  op : BitVec 6
deriving DecidableEq, Repr

/-- The `OP` field, bits 5:0 of every format (R80). -/
def opField (w : Word) : BitVec 6 := w.extractLsb' 0 6

/-- R81. -/
def unpackR (w : Word) : RFields :=
  { i15 := w.extractLsb' 17 15, I := w.extractLsb' 16 1, rB := w.extractLsb' 11 5, rA := w.extractLsb' 6 5,
    op := opField w }

/-- R82. -/
def unpackC (w : Word) : CFields :=
  { i16 := w.extractLsb' 16 16, I := w.extractLsb' 15 1, V := w.extractLsb' 14 1, F := w.extractLsb' 11 3,
    r := w.extractLsb' 6 5, op := opField w }

/-- R83. -/
def unpackS (w : Word) : SFields :=
  { i12 := w.extractLsb' 20 12, V := w.extractLsb' 19 1, F := w.extractLsb' 16 3, rB := w.extractLsb' 11 5,
    rA := w.extractLsb' 6 5, op := opField w }

/-- R84. -/
def unpackI (w : Word) : IFields :=
  { i20 := w.extractLsb' 12 20, I := w.extractLsb' 11 1, r := w.extractLsb' 6 5, op := opField w }

/-- R85. -/
def unpackA (w : Word) : AFields :=
  { unused := w.extractLsb' 21 11, rC := w.extractLsb' 16 5, rB := w.extractLsb' 11 5, rA := w.extractLsb' 6 5,
    op := opField w }

/-- A field's value with its lowest bit at bit `lo` of a word that is 0 elsewhere. -/
def placed {n : Nat} (v : BitVec n) (lo : Nat) : Word := v.setWidth 32 <<< lo

/-- R81. -/
def packR (f : RFields) : Word := placed f.i15 17 ||| placed f.I 16 ||| placed f.rB 11 ||| placed f.rA 6 ||| placed f.op 0

/-- R82. -/
def packC (f : CFields) : Word :=
  placed f.i16 16 ||| placed f.I 15 ||| placed f.V 14 ||| placed f.F 11 ||| placed f.r 6 ||| placed f.op 0

/-- R83. -/
def packS (f : SFields) : Word :=
  placed f.i12 20 ||| placed f.V 19 ||| placed f.F 16 ||| placed f.rB 11 ||| placed f.rA 6 ||| placed f.op 0

/-- R84. -/
def packI (f : IFields) : Word := placed f.i20 12 ||| placed f.I 11 ||| placed f.r 6 ||| placed f.op 0

/-- R85. -/
def packA (f : AFields) : Word :=
  placed f.unused 21 ||| placed f.rC 16 ||| placed f.rB 11 ||| placed f.rA 6 ||| placed f.op 0

/-! ## The opcode map -/

/-- The default OPMAP (R95), decimal as in its table. PRESUMED: the spec took the numbers from outside the source (D1). Log 7. -/
def defaultOpMap : OpMap :=
  { lw := 1, ls := 2, lb := 3, stw := 4, sts := 5, stb := 6, inc := 26, dec := 27, add := 28, sub := 29, mul := 30,
    and := 34, or := 35, xor := 36, not := 37, shiftl := 38, shiftr := 39, shiftrs := 40, j := 46, cmp := 47, cmpu := 48,
    branch := 50 }

/-- The `OP` value of an operation. -/
def OpMap.code (m : OpMap) : Operation → BitVec 6
  | .lw => m.lw
  | .ls => m.ls
  | .lb => m.lb
  | .stw => m.stw
  | .sts => m.sts
  | .stb => m.stb
  | .inc => m.inc
  | .dec => m.dec
  | .add => m.add
  | .sub => m.sub
  | .mul => m.mul
  | .and => m.and
  | .or => m.or
  | .xor => m.xor
  | .not => m.not
  | .shiftl => m.shiftl
  | .shiftr => m.shiftr
  | .shiftrs => m.shiftrs
  | .j => m.j
  | .cmp => m.cmp
  | .cmpu => m.cmpu
  | .branch => m.branch

/-- The 22 operations, in the order of the table of R95. -/
def allOperations : List Operation :=
  [.lw, .ls, .lb, .stw, .sts, .stb, .inc, .dec, .add, .sub, .mul, .and, .or, .xor, .not, .shiftl, .shiftr, .shiftrs,
    .j, .cmp, .cmpu, .branch]

/-- OPMAP read backwards (R97): the operation an `OP` value belongs to, none where it is unassigned (R96). -/
def OpMap.operation (m : OpMap) (op : BitVec 6) : Option Operation :=
  allOperations.find? fun o => m.code o == op

/-- The format of an operation (R95). -/
def Operation.format : Operation → Format
  | .j => .I
  | .branch => .C
  | .lw | .ls | .lb | .stw | .sts | .stb | .inc | .dec | .add | .sub | .mul | .and | .or | .xor | .not
  | .shiftl | .shiftr | .shiftrs | .cmp | .cmpu => .R

/-! ## The condition field -/

/-- The flag selector `F` of a test (R90). -/
def Test.F : Test → BitVec 3
  | .e | .ne => 0
  | .z | .nz => 1
  | .o | .no => 2
  | .s | .ns => 3
  | .l | .ge => 4
  | .g | .le => 5

/-- The expected value `V` of a test (R90). -/
def Test.V : Test → BitVec 1
  | .e | .z | .o | .s | .l | .g => 1
  | .ne | .nz | .no | .ns | .ge | .le => 0

/-- The test a condition field selects (R90); none for the reserved `F` of 6 and 7 (R91). -/
def testOf (F : BitVec 3) (V : BitVec 1) : Option Test :=
  if F = 0 then some (if V = 1 then .e else .ne)
  else if F = 1 then some (if V = 1 then .z else .nz)
  else if F = 2 then some (if V = 1 then .o else .no)
  else if F = 3 then some (if V = 1 then .s else .ns)
  else if F = 4 then some (if V = 1 then .l else .ge)
  else if F = 5 then some (if V = 1 then .g else .le)
  else none

/-- The branch of a test: its mnemonic is "b" and the test's name (R97). -/
def branchOf : Test → BranchTo → Instr
  | .e, d => .be d
  | .ne, d => .bne d
  | .z, d => .bz d
  | .nz, d => .bnz d
  | .o, d => .bo d
  | .no, d => .bno d
  | .s, d => .bs d
  | .ns, d => .bns d
  | .l, d => .bl d
  | .ge, d => .bge d
  | .g, d => .bg d
  | .le, d => .ble d

/-- The operation of an instruction: the twelve branches are one operation with twelve tests (00_scope.md R4, R14). -/
def operationOf : Instr → Operation
  | .add _ _ => .add
  | .dec _ => .dec
  | .inc _ => .inc
  | .mul _ _ => .mul
  | .sub _ _ => .sub
  | .and _ _ => .and
  | .not _ => .not
  | .or _ _ => .or
  | .shiftl _ _ => .shiftl
  | .shiftr _ _ => .shiftr
  | .shiftrs _ _ => .shiftrs
  | .xor _ _ => .xor
  | .j _ => .j
  | .be _ | .bne _ | .bz _ | .bnz _ | .bo _ | .bno _ | .bs _ | .bns _ | .bl _ | .bge _ | .bg _ | .ble _ => .branch
  | .cmp _ _ => .cmp
  | .cmpu _ _ => .cmpu
  | .lw _ _ => .lw
  | .ls _ _ => .ls
  | .lb _ _ => .lb
  | .stw _ _ => .stw
  | .sts _ _ => .sts
  | .stb _ _ => .stb

/-! ## The decoder -/

/-- Why a word, or a string of bytes, is no instruction. -/
inductive DecodeError where
  /-- The `OP` value is assigned to no operation (R96). Raises `IllegalInstruction`. -/
  | unassignedOp (op : BitVec 6)
  /-- A C-format word with the reserved `F` of 6 or 7 (R91). Raises `IllegalInstruction`. -/
  | reservedCond (F : BitVec 3)
  /-- Fewer than the four bytes of an instruction (R80). The machine never meets it: it fetches four bytes. -/
  | tooShort (length : Nat)
deriving DecidableEq, Repr

/-- The second operand of an R-format word: `I` chooses, the other field is ignored (R86, R89). -/
def RFields.src (f : RFields) : Src := if f.I = 1 then .imm f.i15 else .reg f.rB

/-- The address operand of a load or store: the base is used in both forms (R86, R102). -/
def RFields.target (f : RFields) : Target := if f.I = 1 then .disp f.rB f.i15 else .base f.rB

/-- The operand of `j` (R86). -/
def IFields.jumpTo (f : IFields) : JumpTo := if f.I = 1 then .rel f.i20 else .reg f.r

/-- The operand of a conditional branch (R86). -/
def CFields.branchTo (f : CFields) : BranchTo := if f.I = 1 then .rel f.i16 else .reg f.r

/-- The fields of a word whose operation is known (R97). -/
def decodeAs (w : Word) : Operation → Except DecodeError Instr
  | .lw => .ok (.lw (unpackR w).rA (unpackR w).target)
  | .ls => .ok (.ls (unpackR w).rA (unpackR w).target)
  | .lb => .ok (.lb (unpackR w).rA (unpackR w).target)
  | .stw => .ok (.stw (unpackR w).target (unpackR w).rA)
  | .sts => .ok (.sts (unpackR w).target (unpackR w).rA)
  | .stb => .ok (.stb (unpackR w).target (unpackR w).rA)
  | .inc => .ok (.inc (unpackR w).rA)
  | .dec => .ok (.dec (unpackR w).rA)
  | .add => .ok (.add (unpackR w).rA (unpackR w).src)
  | .sub => .ok (.sub (unpackR w).rA (unpackR w).src)
  | .mul => .ok (.mul (unpackR w).rA (unpackR w).src)
  | .and => .ok (.and (unpackR w).rA (unpackR w).src)
  | .or => .ok (.or (unpackR w).rA (unpackR w).src)
  | .xor => .ok (.xor (unpackR w).rA (unpackR w).src)
  | .not => .ok (.not (unpackR w).rA)
  | .shiftl => .ok (.shiftl (unpackR w).rA (unpackR w).src)
  | .shiftr => .ok (.shiftr (unpackR w).rA (unpackR w).src)
  | .shiftrs => .ok (.shiftrs (unpackR w).rA (unpackR w).src)
  | .cmp => .ok (.cmp (unpackR w).rA (unpackR w).src)
  | .cmpu => .ok (.cmpu (unpackR w).rA (unpackR w).src)
  | .j => .ok (.j (unpackI w).jumpTo)
  | .branch =>
    match testOf (unpackC w).F (unpackC w).V with
    | some t => .ok (branchOf t (unpackC w).branchTo)
    | none => .error (.reservedCond (unpackC w).F)

/-- The decoder, total on all words (R97). -/
def decode (m : OpMap) (w : Word) : Except DecodeError Instr :=
  match m.operation (opField w) with
  | some o => decodeAs w o
  | none => .error (.unassignedOp (opField w))

/-! ## Bytes -/

/-- The number whose bytes, least significant first, are given (20_memory.md R50). -/
def leValue : List Byte → Nat
  | [] => 0
  | b :: bs => b.toNat + 2 ^ 8 * leValue bs

/-- The `n` low bytes of a number, least significant first (R50). -/
def leBytes : Nat → Nat → List Byte
  | 0, _ => []
  | n + 1, v => BitVec.ofNat 8 v :: leBytes n (v / 2 ^ 8)

/-- The value of a cell from its bytes in address order (R50: MemRead). -/
def cellValue (order : ByteOrder) (bs : List Byte) : Word :=
  match order with
  | .little => BitVec.ofNat 32 (leValue bs)
  | .big => BitVec.ofNat 32 (leValue bs.reverse)

/-- The bytes of the low `8 * n` bits of a value, in address order (R50: MemWrite). -/
def cellBytes (order : ByteOrder) (n : Nat) (v : Word) : List Byte :=
  match order with
  | .little => leBytes n v.toNat
  | .big => (leBytes n v.toNat).reverse

/-- The decoder on bytes in address order: the instruction of the first four and the bytes after it (R51, R80, R99). -/
def decodeBytes (order : ByteOrder) (m : OpMap) (bs : List Byte) : Except DecodeError (Instr × List Byte) :=
  match bs with
  | b0 :: b1 :: b2 :: b3 :: rest =>
    match decode m (cellValue order [b0, b1, b2, b3]) with
    | .ok i => .ok (i, rest)
    | .error e => .error e
  | short => .error (.tooShort short.length)

/-- The instruction the decoder reads from the word `w` of `nbits` bits (bits above are 0), laid out in memory as the
default BYTE_ORDER stores it, under the default OPMAP. -/
def decodeTableWord (nbits w : Nat) : Option Instr :=
  match decodeBytes .little defaultOpMap (cellBytes .little 4 (BitVec.ofNat 32 (w % 2 ^ nbits))) with
  | .ok (i, _) => some i
  | .error _ => none

/-! ## The encoder: unused fields are written as zeros (R89) -/

/-- An R-format word with a second operand. -/
def encodeSrc (op : BitVec 6) (rA : RegIdx) : Src → Word
  | .reg rB => packR { i15 := 0, I := 0, rB := rB, rA := rA, op := op }
  | .imm i15 => packR { i15 := i15, I := 1, rB := 0, rA := rA, op := op }

/-- An R-format word with the single operand `rA`. -/
def encodeUnary (op : BitVec 6) (rA : RegIdx) : Word := packR { i15 := 0, I := 0, rB := 0, rA := rA, op := op }

/-- An R-format word with an address operand. -/
def encodeTarget (op : BitVec 6) (rA : RegIdx) : Target → Word
  | .base rB => packR { i15 := 0, I := 0, rB := rB, rA := rA, op := op }
  | .disp rB i15 => packR { i15 := i15, I := 1, rB := rB, rA := rA, op := op }

/-- An I-format word. -/
def encodeJump (op : BitVec 6) : JumpTo → Word
  | .reg r => packI { i20 := 0, I := 0, r := r, op := op }
  | .rel i20 => packI { i20 := i20, I := 1, r := 0, op := op }

/-- A C-format word with a test. -/
def encodeBranch (op : BitVec 6) (t : Test) : BranchTo → Word
  | .reg r => packC { i16 := 0, I := 0, V := t.V, F := t.F, r := r, op := op }
  | .rel i16 => packC { i16 := i16, I := 1, V := t.V, F := t.F, r := 0, op := op }

/-- The word of an instruction (30_encoding.md R81, R82, R84, R86, R89, R95). -/
def encode (m : OpMap) : Instr → Word
  | .add rA src => encodeSrc m.add rA src
  | .dec rA => encodeUnary m.dec rA
  | .inc rA => encodeUnary m.inc rA
  | .mul rA src => encodeSrc m.mul rA src
  | .sub rA src => encodeSrc m.sub rA src
  | .and rA src => encodeSrc m.and rA src
  | .not rA => encodeUnary m.not rA
  | .or rA src => encodeSrc m.or rA src
  | .shiftl rA src => encodeSrc m.shiftl rA src
  | .shiftr rA src => encodeSrc m.shiftr rA src
  | .shiftrs rA src => encodeSrc m.shiftrs rA src
  | .xor rA src => encodeSrc m.xor rA src
  | .j dst => encodeJump m.j dst
  | .be dst => encodeBranch m.branch .e dst
  | .bne dst => encodeBranch m.branch .ne dst
  | .bz dst => encodeBranch m.branch .z dst
  | .bnz dst => encodeBranch m.branch .nz dst
  | .bo dst => encodeBranch m.branch .o dst
  | .bno dst => encodeBranch m.branch .no dst
  | .bs dst => encodeBranch m.branch .s dst
  | .bns dst => encodeBranch m.branch .ns dst
  | .bl dst => encodeBranch m.branch .l dst
  | .bge dst => encodeBranch m.branch .ge dst
  | .bg dst => encodeBranch m.branch .g dst
  | .ble dst => encodeBranch m.branch .le dst
  | .cmp rA src => encodeSrc m.cmp rA src
  | .cmpu rA src => encodeSrc m.cmpu rA src
  | .lw rA target => encodeTarget m.lw rA target
  | .ls rA target => encodeTarget m.ls rA target
  | .lb rA target => encodeTarget m.lb rA target
  | .stw target rA => encodeTarget m.stw rA target
  | .sts target rA => encodeTarget m.sts rA target
  | .stb target rA => encodeTarget m.stb rA target

/-! ## The bits an instruction's word uses (R89) -/

/-- The bits of an R-format word that are used when its second operand is `rB|i15`: `rB` only with `I = 0`, `i15` only with `I = 1`. -/
def usedSrc : Src → Word
  | .reg _ => 0x0001FFFF
  | .imm _ => 0xFFFF07FF

/-- With an address operand `rB` is used in both forms. -/
def usedTarget : Target → Word
  | .base _ => 0x0001FFFF
  | .disp _ _ => 0xFFFFFFFF

/-- `R` only with `I = 0`, `i20` only with `I = 1`. -/
def usedJump : JumpTo → Word
  | .reg _ => 0x00000FFF
  | .rel _ => 0xFFFFF83F

/-- `R` only with `I = 0`, `i16` only with `I = 1`. -/
def usedBranch : BranchTo → Word
  | .reg _ => 0x0000FFFF
  | .rel _ => 0xFFFFF83F

/-- The bits of a word that an instruction uses; the others are ignored on decode and written as zeros (R89). -/
def usedBits : Instr → Word
  | .dec _ | .inc _ | .not _ => 0x000007FF
  | .add _ src | .mul _ src | .sub _ src | .and _ src | .or _ src | .shiftl _ src | .shiftr _ src | .shiftrs _ src
  | .xor _ src | .cmp _ src | .cmpu _ src => usedSrc src
  | .lw _ t | .ls _ t | .lb _ t | .stw t _ | .sts t _ | .stb t _ => usedTarget t
  | .j d => usedJump d
  | .be d | .bne d | .bz d | .bnz d | .bo d | .bno d | .bs d | .bns d | .bl d | .bge d | .bg d | .ble d => usedBranch d

/-! ## The assembler's notation (R101 to R104): how a written operand becomes a field -/

/-- The default REGNUM (10_state.md R21): `rN` is N, `fp` is 30, `sp` is 31. PRESUMED, log 8. -/
def defaultRegNum : RegNum := { r := Vector.ofFn fun n => BitVec.ofNat 5 n.val, fp := 30, sp := 31 }

/-- The number of a register name (R21). -/
def RegNum.number (m : RegNum) : RegName → RegIdx
  | .r n => m.r.get n
  | .fp => m.fp
  | .sp => m.sp

/-- An integer written where `i15` stands (R104): signed for every instruction but `cmpu`. -/
def writtenImm (N : Nat) (v : Int) : Option (BitVec N) := if fitsSigned N v then some (BitVec.ofInt N v) else none

/-- An integer written where `cmpu`'s `i15` stands (R104). -/
def writtenUImm (N : Nat) (v : Int) : Option (BitVec N) := if fitsUnsigned N v then some (BitVec.ofInt N v) else none

/-- A label `L` written in a branch at address `A` encodes `(L - (A + 4)) / 4`, an integer in the field's range (R103). -/
def labelField (N : Nat) (A L : Word) : Option (BitVec N) :=
  let d : Int := (L.toNat : Int) - ((A.toNat : Int) + 4)
  if d % 4 = 0 then writtenImm N (d / 4) else none

end Sys2Proof
end

