-- ==== Sys2Proof/Machine/Defaults.lean ====
section
/-! DEFINITION. The values the model names where the spec leaves a parameter or a reset value open. Each has a row in notes/assumptions. -/

namespace Sys2Proof.Machine

/-- MEM_VALID of `State.reset`: the whole 32-bit address space is memory. The spec leaves it open (20_memory.md R56, D7).
DESIGN CHOICE, unsafe: log 2. -/
def wholeAddressSpace : List Region := [{ base := 0, size := 2 ^ 32 }]

/-- The default of every parameter that has one (92_eei_decisions.md, parameter table); `memValid` has none and is log 2's choice. -/
def defaultParams : Params :=
  { opMap := defaultOpMap, byteOrder := .little, memValid := wholeAddressSpace, overflowRule := .unsigned,
    cmpEZ := .swapped, shiftOver := .allOut, branchBase := .next }

/-- RESET_PC of `State.reset`; the spec leaves it open (70_reset_and_hazards.md R271, D21). DESIGN CHOICE, unsafe: log 3. -/
def defaultResetPc : Word := 0x00000000

/-- Every general register of `State.reset`; the spec: "any 32-bit value" (10_state.md R40). DESIGN CHOICE, unsafe: log 4. -/
def resetRegister : Word := 0x00000000

/-- Every flag of `State.reset`; the spec: "any bit" (10_state.md R40). DESIGN CHOICE, unsafe: log 5. -/
def resetFlag : Bool := false

/-- What a byte of memory reads as that no image and no store has written (10_state.md R40: "unspecified").
DESIGN CHOICE, unsafe: log 6. -/
def unwrittenByte : Byte := 0x00

end Sys2Proof.Machine
end

