-- ==== Sys2Proof/Machine/State.lean ====
section
/-! DEFINITION. The machine's state (10_state.md), its faults (60_exceptions.md R232) and reset (10_state.md R40). -/

namespace Sys2Proof.Machine

/-- The four status flags, four independent bits (10_state.md R30, R35; log 20). -/
structure Flags where
  e : Bool
  z : Bool
  o : Bool
  s : Bool
deriving DecidableEq, Repr

/-- Memory: the bytes written so far, by address, in the canonical form `Memory.wf`; every other address reads as
`unwrittenByte` (10_state.md R37). -/
abbrev Memory := List Host.Cell

/-- Addresses rise strictly from `lo`, lie in the 32-bit space, and no entry equals what an unlisted address reads as. -/
def Memory.wfFrom (lo : Nat) : Memory → Bool
  | [] => true
  | (a, b) :: rest => lo ≤ a && a < 2 ^ 32 && b != unwrittenByte && Memory.wfFrom (a + 1) rest

/-- The one canonical form of memory: equal memories are equal lists. -/
def Memory.wf (m : Memory) : Bool := Memory.wfFrom 0 m

/-- The state of the machine: 32 general registers `x[0]` to `x[31]` (R20), the instruction pointer (R25), the status flags (R30),
memory (R37), and the parameters of the model, which no instruction changes (00_scope.md R8; log 1). -/
structure State where
  regs : Vector Word 32
  pc : Word
  flags : Flags
  mem : Memory
  params : Params
deriving DecidableEq, Repr

/-- What an access is for (20_memory.md R56). -/
inductive AccessKind where
  | fetch
  | load
  | store
deriving DecidableEq, Repr

/-- The complete list of faults (60_exceptions.md R232), with what each records. A fault leaves the state as it was before the step
and ends the run (R231). Stopping is safe: a program that faults has no proved behaviour. Log 15. -/
inductive Fault where
  /-- Raised by the fetch when `pc[1:0]` is not 0 (R234). Safe. -/
  | misalignedFetch (pc : Word)
  /-- Raised by the fetch, the loads and the stores when a byte of the access is outside MEM_VALID (R236). Safe. -/
  | accessFault (addr : Word) (size : Nat) (kind : AccessKind)
  /-- Raised by the decoder when `OP` is unassigned or a C-format `F` is 6 or 7 (R233): the spec gives the word no meaning. Safe. -/
  | illegalInstruction (word : Word)
  /-- Raised by lw, ls, stw, sts when the effective address is no multiple of the size (R235). Safe. -/
  | misalignedAccess (addr : Word) (size : Nat)
deriving DecidableEq, Repr

/-- Why the model has no meaning for an instruction. No arm of `exec` uses it: every instruction is modelled. -/
inductive Refusal where
  /-- An instruction of the opcode table without a meaning yet; raised by an arm of `exec`. Safe. -/
  | notModelled (mnemonic : String)
deriving DecidableEq, Repr

/-- The outcome of a step (60_exceptions.md R231). -/
abbrev Result := Host.Outcome State Fault Refusal

/-- Reset (10_state.md R40; 70_reset_and_hazards.md R270): `pc` is RESET_PC, memory is the launch image, registers and flags are
whatever the caller says ("any 32-bit value", "any bit"). -/
def State.resetWith (params : Params) (resetPc : Word) (regs : Vector Word 32) (flags : Flags) (image : Memory) : State :=
  { regs := regs, pc := resetPc, flags := flags, mem := image, params := params }

/-- The machine right after reset, with the values the log names where the spec leaves one open: logs 2 to 6, and the default
parameters, logs 7 to 14. The launch image is empty: log 24. -/
def State.reset : State :=
  State.resetWith defaultParams defaultResetPc (Vector.replicate 32 resetRegister)
    { e := resetFlag, z := resetFlag, o := resetFlag, s := resetFlag } []

end Sys2Proof.Machine
end

