-- ==== Sys2Proof/Machine/Flags.lean ====
section
/-! DEFINITION. The status flags: the value each one receives (10_state.md R31, R32; 40_arithmetic.md R120; 44_comparison.md R204) and
the tests that read them (30_encoding.md R90). -/

namespace Sys2Proof.Machine

/-- `z <- (r = 0)` (10_state.md R31). -/
def zeroOf (r : Word) : Bool := r == 0

/-- `s <- r[31]` (10_state.md R31). -/
def signOf (r : Word) : Bool := r.msb

/-- The exact unsigned result does not fit in 0 .. 2^32-1 (40_arithmetic.md R120). For `inc` and `dec` `b` is not read. -/
def unsignedOverflow (op : OverflowOp) (a b : Word) : Bool :=
  match op with
  | .add => 2 ^ 32 ≤ a.toNat + b.toNat
  | .inc => 2 ^ 32 ≤ a.toNat + 1
  | .dec => a.toNat < 1
  | .mul => 2 ^ 32 ≤ a.toNat * b.toNat

/-- An exact integer lies outside -2^31 .. 2^31-1. -/
def outsideSigned (v : Int) : Bool := v < -2 ^ 31 || 2 ^ 31 ≤ v

/-- The exact result on the operands read as signed does not fit (40_arithmetic.md R120, the value `signed`). -/
def signedOverflow (op : OverflowOp) (a b : Word) : Bool :=
  match op with
  | .add => outsideSigned (a.toInt + b.toInt)
  | .inc => outsideSigned (a.toInt + 1)
  | .dec => outsideSigned (a.toInt - 1)
  | .mul => outsideSigned (a.toInt * b.toInt)

/-- `overflow(op, a, b)` under OVERFLOW_RULE (40_arithmetic.md R120; log 11). -/
def overflow (rule : OverflowRule) (op : OverflowOp) (a b : Word) : Bool :=
  match rule with
  | .unsigned => unsignedOverflow op a b
  | .signed => signedOverflow op a b
  | .other => Config.otherOverflow op a b

/-- An instruction that lists Z, S: both are written from the result, `e` and `o` stay (10_state.md R31, R32, R33). -/
def Flags.withZS (f : Flags) (r : Word) : Flags := { f with z := zeroOf r, s := signOf r }

/-- An instruction that lists Z, O, S: `e` stays (10_state.md R31, R32, R33). -/
def Flags.withZOS (f : Flags) (r : Word) (o : Bool) : Flags := { f with z := zeroOf r, o := o, s := signOf r }

/-- A comparison of `a` and `b`, `lt` saying whether `a` is below `b`: E, Z, S are written, `o` stays. CMP_EZ says which of `e`, `z`
means "equal" (44_comparison.md R204; 90_conflicts.md C2, C3). -/
def Flags.compared (f : Flags) (rule : CmpEZ) (a b : Word) (lt : Bool) : Flags :=
  match rule with
  | .swapped => { f with e := a == b, z := a == b && a == 0, s := lt }
  | .literal => { f with e := a == b && a == 0, z := a == b, s := lt }

/-- `flagval(F)` (30_encoding.md R90): a row pair of the Conditional flags table, not a bit of the status register (90_conflicts.md C9);
none for the reserved 6 and 7 (R91). -/
def flagVal (F : BitVec 3) (f : Flags) : Option Bool :=
  if F = 0 then some f.e
  else if F = 1 then some f.z
  else if F = 2 then some f.o
  else if F = 3 then some f.s
  else if F = 4 then some (!f.e && f.s)
  else if F = 5 then some (!f.e && !f.s)
  else none

/-- `cond(F, V)` of a test: the column "is true when" of the Conditional flags table (30_encoding.md R90). -/
def testHolds (t : Test) (f : Flags) : Bool :=
  match t with
  | .e => f.e
  | .ne => !f.e
  | .z => f.z
  | .nz => !f.z
  | .o => f.o
  | .no => !f.o
  | .s => f.s
  | .ns => !f.s
  | .l => !f.e && f.s
  | .ge => f.e || !f.s
  | .g => !f.e && !f.s
  | .le => f.e || f.s

end Sys2Proof.Machine
end

