-- ==== Sys2Proof/Machine/Ops.lean ====
section
/-! DEFINITION. The named operations over registers, `pc` and memory, and raising a fault. -/

namespace Sys2Proof.Machine

/-! ## Registers and pc -/

/-- `x[i]` (00_scope.md R11): any of the 32 registers; none is hardwired (10_state.md R22). -/
def State.reg (s : State) (r : RegIdx) : Word := s.regs[r.toNat]'r.isLt

/-- `x[i] <- v` (00_scope.md R11). -/
def State.setReg (s : State) (r : RegIdx) (v : Word) : State := { s with regs := s.regs.set r.toNat v r.isLt }

/-- The register a name stands for under a REGNUM (10_state.md R21). -/
def State.named (s : State) (m : RegNum) (n : RegName) : Word := s.reg (m.number n)

/-- `npc`, the address of the next instruction in memory order, modulo 2^32 (00_scope.md R11; 10_state.md R27). -/
def State.npc (s : State) : Word := s.pc + 4

/-- `pc <- target`. -/
def State.goto (s : State) (target : Word) : State := { s with pc := target }

/-- `pc <- npc` (10_state.md R26). -/
def State.advance (s : State) : State := s.goto s.npc

/-- The status flags written together. -/
def State.setFlags (s : State) (f : Flags) : State := { s with flags := f }

/-- The common end of an instruction with a destination: the register, the flags and `pc` are written together (00_scope.md R12). -/
def State.retire (s : State) (rA : RegIdx) (v : Word) (f : Flags) : State := ((s.setReg rA v).setFlags f).advance

/-! ## Faults: taking an exception -/

/-- `raise X(info)` (60_exceptions.md R231): the step ends in the fault, nothing is saved, no mode changes, control goes nowhere
(R239). There is no return from a fault (R239). Logs 15, 16. -/
def raise (f : Fault) : Result := .fault f

/-! ## Memory bytes -/

/-- The byte at an address (10_state.md R37; 20_memory.md R55). -/
def Memory.readByte : Memory → Nat → Byte
  | [], _ => unwrittenByte
  | (k, b) :: rest, a => if k = a then b else Memory.readByte rest a

/-- A byte written at an address, keeping the canonical form. -/
def Memory.writeByte : Memory → Nat → Byte → Memory
  | [], a, b => if b = unwrittenByte then [] else [(a, b)]
  | (k, c) :: rest, a, b =>
    if a < k then (if b = unwrittenByte then (k, c) :: rest else (a, b) :: (k, c) :: rest)
    else if a = k then (if b = unwrittenByte then rest else (a, b) :: rest)
    else (k, c) :: Memory.writeByte rest a b

/-- The `n` bytes from `addr` on, in address order, addresses modulo 2^32 (20_memory.md R50, R57). -/
def Memory.readBytes (m : Memory) (addr : Word) : Nat → List Byte
  | 0 => []
  | n + 1 => m.readByte addr.toNat :: Memory.readBytes m (addr + 1) n

/-- The bytes written from `addr` on, in address order, addresses modulo 2^32 (20_memory.md R50, R57). -/
def Memory.writeBytes (m : Memory) (addr : Word) : List Byte → Memory
  | [] => m
  | b :: bs => Memory.writeBytes (m.writeByte addr.toNat b) (addr + 1) bs

/-- A launch image (10_state.md R40): pieces of bytes, each at an address. -/
def Memory.ofImage (pieces : List (Word × List Byte)) : Memory :=
  pieces.foldl (fun m p => m.writeBytes p.1 p.2) []

/-- MemRead (00_scope.md R11; 20_memory.md R50), without its checks. -/
def State.memRead (s : State) (addr : Word) (n : Nat) : Word :=
  cellValue s.params.byteOrder (s.mem.readBytes addr n)

/-- MemWrite (00_scope.md R11; 20_memory.md R50), without its checks. -/
def State.memWrite (s : State) (addr : Word) (n : Nat) (v : Word) : State :=
  { s with mem := s.mem.writeBytes addr (cellBytes s.params.byteOrder n v) }

/-! ## Which addresses hold memory -/

/-- An address lies in a range of MEM_VALID. -/
def inRegion (r : Region) (a : Word) : Bool := r.base ≤ a.toNat && a.toNat < r.base + r.size

/-- An address is in MEM_VALID (20_memory.md R56). -/
def hasByte (p : Params) (a : Word) : Bool := p.memValid.any fun r => inRegion r a

/-- Every byte `a .. a+n-1`, modulo 2^32, is in MEM_VALID (20_memory.md R56). -/
def hasBytes (p : Params) (a : Word) : Nat → Bool
  | 0 => true
  | n + 1 => hasByte p a && hasBytes p (a + 1) n

/-! ## Checked data access -/

/-- The fault of a load or store of `n` bytes at `ea`, if any: alignment first, then MEM_VALID (45_memory_access.md R220;
60_exceptions.md R235, R236, R237). -/
def dataFault (p : Params) (kind : AccessKind) (ea : Word) (n : Nat) : Option Fault :=
  if ea.toNat % n ≠ 0 then some (.misalignedAccess ea n)
  else if hasBytes p ea n then none
  else some (.accessFault ea n kind)

end Sys2Proof.Machine
end

