-- ==== Sys2Proof/Machine/Operands.lean ====
section
/-! DEFINITION. The operand forms (30_encoding.md R86 to R88; 42_branching.md R160; 45_memory_access.md R210, R218). -/

namespace Sys2Proof.Machine

/-- `sext_N` to 32 bits (00_scope.md R11). -/
def sext {N : Nat} (v : BitVec N) : Word := v.signExtend 32

/-- `zext_N` to 32 bits (00_scope.md R11). -/
def zext {N : Nat} (v : BitVec N) : Word := v.setWidth 32

/-- `op2` of every R-format instruction but `cmpu`: the immediate is sign-extended (R87). -/
def State.op2 (s : State) : Src → Word
  | .reg rB => s.reg rB
  | .imm i15 => sext i15

/-- `op2` of `cmpu`: the immediate is zero-extended (R87). -/
def State.op2u (s : State) : Src → Word
  | .reg rB => s.reg rB
  | .imm i15 => zext i15

/-- The effective address: a byte offset, sign-extended, not scaled, the sum modulo 2^32 (45_memory_access.md R210). -/
def State.ea (s : State) : Target → Word
  | .base rB => s.reg rB
  | .disp rB i15 => s.reg rB + sext i15

/-- The byte offset of a branch immediate: sign-extended, then shifted left by 2 in 32 bits (R88). -/
def branchOffset {N : Nat} (imm : BitVec N) : Word := sext imm <<< 2

/-- The address a relative branch adds its offset to: `npc`, or the branch itself under `BRANCH_BASE = self` (42_branching.md R160; D15). -/
def State.branchBase (s : State) : Word :=
  match s.params.branchBase with
  | .next => s.npc
  | .self => s.pc

/-- The target of `j`: absolute from a register, relative from an immediate (42_branching.md R160, R161). -/
def State.jumpTarget (s : State) : JumpTo → Word
  | .reg r => s.reg r
  | .rel i20 => s.branchBase + branchOffset i20

/-- The target of a conditional branch (42_branching.md R160, R162). -/
def State.branchTarget (s : State) : BranchTo → Word
  | .reg r => s.reg r
  | .rel i16 => s.branchBase + branchOffset i16

end Sys2Proof.Machine
end

