-- ==== Sys2Proof/Machine/Arithmetic.lean ====
section
/-! DEFINITION. Arithmetic operations (40_arithmetic.md): results modulo 2^32 (R120). -/

namespace Sys2Proof.Machine

/-- The common end of `add inc dec mul`: the result, and Z, O, S with `overflow(op, a, b)` (R120). -/
def arithZOS (op : OverflowOp) (rA : RegIdx) (a b r : Word) (s : State) : Result :=
  .next (s.retire rA r (s.flags.withZOS r (overflow s.params.overflowRule op a b)))

/-- R121. -/
def execAdd (rA : RegIdx) (src : Src) (s : State) : Result :=
  arithZOS .add rA (s.reg rA) (s.op2 src) (s.reg rA + s.op2 src) s

/-- R122. -/
def execDec (rA : RegIdx) (s : State) : Result := arithZOS .dec rA (s.reg rA) 1 (s.reg rA - 1) s

/-- R123. -/
def execInc (rA : RegIdx) (s : State) : Result := arithZOS .inc rA (s.reg rA) 1 (s.reg rA + 1) s

/-- R124: the low 32 bits of the product. -/
def execMul (rA : RegIdx) (src : Src) (s : State) : Result :=
  arithZOS .mul rA (s.reg rA) (s.op2 src) (s.reg rA * s.op2 src) s

/-- R125: Z and S only, `o` unchanged. -/
def execSub (rA : RegIdx) (src : Src) (s : State) : Result :=
  .next (s.retire rA (s.reg rA - s.op2 src) (s.flags.withZS (s.reg rA - s.op2 src)))

end Sys2Proof.Machine
end

