-- ==== Sys2Proof/Machine/Bitwise.lean ====
section
/-! DEFINITION. Bitwise operations (41_bitwise.md): Z and S from the result, `e` and `o` unchanged (R140). -/

namespace Sys2Proof.Machine

/-- The common end of the family: the result, and Z, S (R140). -/
def bitwiseZS (rA : RegIdx) (r : Word) (s : State) : Result := .next (s.retire rA r (s.flags.withZS r))

/-- The shift amount `u(op2)`; under `SHIFT_OVER = mod32` its remainder by 32 (R148; log 13). -/
def shiftAmount (rule : ShiftOver) (op2 : Word) : Nat :=
  match rule with
  | .allOut => op2.toNat
  | .mod32 => op2.toNat % 32

/-- `trunc32(u(a) * 2^n)` (R148). The bound keeps evaluation from building 2^n for a huge amount. -/
def shiftLeft (a : Word) (n : Nat) : Word := if n < 32 then a <<< n else 0

/-- `floor(u(a) / 2^n)` (R148). -/
def shiftRight (a : Word) (n : Nat) : Word := if n < 32 then a >>> n else 0

/-- `trunc32(floor(s(a) / 2^n))` (R146, R148). -/
def shiftRightSigned (a : Word) (n : Nat) : Word :=
  if n < 32 then a.sshiftRight n else if a.msb then 0xFFFFFFFF else 0

/-- R141. -/
def execAnd (rA : RegIdx) (src : Src) (s : State) : Result := bitwiseZS rA (s.reg rA &&& s.op2 src) s

/-- R142. -/
def execNot (rA : RegIdx) (s : State) : Result := bitwiseZS rA (s.reg rA ^^^ 0xFFFFFFFF) s

/-- R143. -/
def execOr (rA : RegIdx) (src : Src) (s : State) : Result := bitwiseZS rA (s.reg rA ||| s.op2 src) s

/-- R144. -/
def execShiftl (rA : RegIdx) (src : Src) (s : State) : Result :=
  bitwiseZS rA (shiftLeft (s.reg rA) (shiftAmount s.params.shiftOver (s.op2 src))) s

/-- R145. -/
def execShiftr (rA : RegIdx) (src : Src) (s : State) : Result :=
  bitwiseZS rA (shiftRight (s.reg rA) (shiftAmount s.params.shiftOver (s.op2 src))) s

/-- R146. -/
def execShiftrs (rA : RegIdx) (src : Src) (s : State) : Result :=
  bitwiseZS rA (shiftRightSigned (s.reg rA) (shiftAmount s.params.shiftOver (s.op2 src))) s

/-- R147. -/
def execXor (rA : RegIdx) (src : Src) (s : State) : Result := bitwiseZS rA (s.reg rA ^^^ s.op2 src) s

end Sys2Proof.Machine
end

