-- ==== Sys2Proof/Machine/Branching.lean ====
section
/-! DEFINITION. Branching (42_branching.md): `pc` is the one thing written. A misaligned target faults at the next fetch, not here (R176);
no link register, no delay slot (R175). -/

namespace Sys2Proof.Machine

/-- The conditional branch, general form (R162). -/
def branchIf (t : Test) (dst : BranchTo) (s : State) : Result :=
  .next (if testHolds t s.flags then s.goto (s.branchTarget dst) else s.advance)

/-- R161. -/
def execJ (dst : JumpTo) (s : State) : Result := .next (s.goto (s.jumpTarget dst))

/-- R163. -/
def execBe (dst : BranchTo) (s : State) : Result := branchIf .e dst s

/-- R164. -/
def execBne (dst : BranchTo) (s : State) : Result := branchIf .ne dst s

/-- R165. -/
def execBz (dst : BranchTo) (s : State) : Result := branchIf .z dst s

/-- R166. -/
def execBnz (dst : BranchTo) (s : State) : Result := branchIf .nz dst s

/-- R167. -/
def execBo (dst : BranchTo) (s : State) : Result := branchIf .o dst s

/-- R168. -/
def execBno (dst : BranchTo) (s : State) : Result := branchIf .no dst s

/-- R169. -/
def execBs (dst : BranchTo) (s : State) : Result := branchIf .s dst s

/-- R170. -/
def execBns (dst : BranchTo) (s : State) : Result := branchIf .ns dst s

/-- R171. -/
def execBl (dst : BranchTo) (s : State) : Result := branchIf .l dst s

/-- R172. -/
def execBge (dst : BranchTo) (s : State) : Result := branchIf .ge dst s

/-- R173. -/
def execBg (dst : BranchTo) (s : State) : Result := branchIf .g dst s

/-- R174. -/
def execBle (dst : BranchTo) (s : State) : Result := branchIf .le dst s

end Sys2Proof.Machine
end

