-- ==== Sys2Proof/Machine/Comparison.lean ====
section
/-! DEFINITION. Comparison (44_comparison.md): E, Z, S are written, no register and not `o` (R200). -/

namespace Sys2Proof.Machine

/-- The common end of `cmp` and `cmpu` (R200, R204). -/
def compareEZS (a b : Word) (lt : Bool) (s : State) : Result :=
  .next (s.setFlags (s.flags.compared s.params.cmpEZ a b lt)).advance

/-- R201: the operands read as signed, compared exactly. -/
def execCmp (rA : RegIdx) (src : Src) (s : State) : Result :=
  compareEZS (s.reg rA) (s.op2 src) ((s.reg rA).toInt < (s.op2 src).toInt) s

/-- R202: the operands read as unsigned, the immediate zero-extended. -/
def execCmpu (rA : RegIdx) (src : Src) (s : State) : Result :=
  compareEZS (s.reg rA) (s.op2u src) ((s.reg rA).toNat < (s.op2u src).toNat) s

end Sys2Proof.Machine
end

