-- ==== Sys2Proof/Machine/MemoryAccess.lean ====
section
/-! DEFINITION. Memory access (45_memory_access.md): zero-extending loads that write Z and S from the loaded value (R219), and stores, which
write no flag; no base register is updated (R217). -/

namespace Sys2Proof.Machine

/-- A load of `n` bytes: the checks of R220, then the cell zero-extended into `rA` (R54, R211 to R213). The address is computed from the
state before the step (R217). -/
def loadCell (n : Nat) (rA : RegIdx) (target : Target) (s : State) : Result :=
  match dataFault s.params .load (s.ea target) n with
  | some f => raise f
  | none => .next (s.retire rA (s.memRead (s.ea target) n) (s.flags.withZS (s.memRead (s.ea target) n)))

/-- A store of the low `8 * n` bits of `rA`: the checks of R220, then the bytes (R54, R214 to R216). -/
def storeCell (n : Nat) (target : Target) (rA : RegIdx) (s : State) : Result :=
  match dataFault s.params .store (s.ea target) n with
  | some f => raise f
  | none => .next (s.memWrite (s.ea target) n (s.reg rA)).advance

/-- R211. -/
def execLw (rA : RegIdx) (target : Target) (s : State) : Result := loadCell 4 rA target s

/-- R212. -/
def execLs (rA : RegIdx) (target : Target) (s : State) : Result := loadCell 2 rA target s

/-- R213. -/
def execLb (rA : RegIdx) (target : Target) (s : State) : Result := loadCell 1 rA target s

/-- R214. -/
def execStw (target : Target) (rA : RegIdx) (s : State) : Result := storeCell 4 target rA s

/-- R215. -/
def execSts (target : Target) (rA : RegIdx) (s : State) : Result := storeCell 2 target rA s

/-- R216. -/
def execStb (target : Target) (rA : RegIdx) (s : State) : Result := storeCell 1 target rA s

end Sys2Proof.Machine
end

