-- ==== Sys2Proof/Machine/Dispatch.lean ====
section
/-! DEFINITION. The dispatch: one arm per instruction, each a call of its meaning. -/

namespace Sys2Proof.Machine

def exec (i : Instr) (s : State) : Host.Outcome State Fault Refusal :=
  match i with
  | .add rA src => Sys2Proof.Machine.execAdd rA src s
  | .dec rA => Sys2Proof.Machine.execDec rA s
  | .inc rA => Sys2Proof.Machine.execInc rA s
  | .mul rA src => Sys2Proof.Machine.execMul rA src s
  | .sub rA src => Sys2Proof.Machine.execSub rA src s
  | .and rA src => Sys2Proof.Machine.execAnd rA src s
  | .not rA => Sys2Proof.Machine.execNot rA s
  | .or rA src => Sys2Proof.Machine.execOr rA src s
  | .shiftl rA src => Sys2Proof.Machine.execShiftl rA src s
  | .shiftr rA src => Sys2Proof.Machine.execShiftr rA src s
  | .shiftrs rA src => Sys2Proof.Machine.execShiftrs rA src s
  | .xor rA src => Sys2Proof.Machine.execXor rA src s
  | .j dst => Sys2Proof.Machine.execJ dst s
  | .be dst => Sys2Proof.Machine.execBe dst s
  | .bne dst => Sys2Proof.Machine.execBne dst s
  | .bz dst => Sys2Proof.Machine.execBz dst s
  | .bnz dst => Sys2Proof.Machine.execBnz dst s
  | .bo dst => Sys2Proof.Machine.execBo dst s
  | .bno dst => Sys2Proof.Machine.execBno dst s
  | .bs dst => Sys2Proof.Machine.execBs dst s
  | .bns dst => Sys2Proof.Machine.execBns dst s
  | .bl dst => Sys2Proof.Machine.execBl dst s
  | .bge dst => Sys2Proof.Machine.execBge dst s
  | .bg dst => Sys2Proof.Machine.execBg dst s
  | .ble dst => Sys2Proof.Machine.execBle dst s
  | .cmp rA src => Sys2Proof.Machine.execCmp rA src s
  | .cmpu rA src => Sys2Proof.Machine.execCmpu rA src s
  | .lw rA target => Sys2Proof.Machine.execLw rA target s
  | .ls rA target => Sys2Proof.Machine.execLs rA target s
  | .lb rA target => Sys2Proof.Machine.execLb rA target s
  | .stw target rA => Sys2Proof.Machine.execStw target rA s
  | .sts target rA => Sys2Proof.Machine.execSts target rA s
  | .stb target rA => Sys2Proof.Machine.execStb target rA s

end Sys2Proof.Machine
end

