-- ==== Sys2Proof/Machine/Fetch.lean ====
section
/-! DEFINITION. Fetching an instruction (00_scope.md R12 (a) to (c); 20_memory.md R51, R52, R56, R63), and placing one where the next fetch reads. -/

namespace Sys2Proof.Machine

/-- The fetch: `pc` aligned (R52, R234), its four bytes in MEM_VALID (R56, R236), the word in the machine's byte order (R51), from the
same memory that stores write (R63). -/
def fetchWord (s : State) : Except Fault Word :=
  if s.pc.toNat % 4 ≠ 0 then .error (.misalignedFetch s.pc)
  else if hasBytes s.params s.pc 4 then .ok (s.memRead s.pc 4)
  else .error (.accessFault s.pc 4 .fetch)

/-- Fetch and decode, in the order of 60_exceptions.md R237; every word without a meaning is `IllegalInstruction(word)` (R233). -/
def fetchInstr (s : State) : Except Fault Instr :=
  match fetchWord s with
  | .error f => .error f
  | .ok w =>
    match decode s.params.opMap w with
    | .ok i => .ok i
    | .error _ => .error (.illegalInstruction w)

/-- A word placed where the next fetch reads it: `pc` made a multiple of 4 and its four bytes made part of MEM_VALID where they are not (both
hold of every state a fetch succeeds in), and the word's bytes written there in the machine's byte order. Log 24. -/
def placeWord (s : State) (w : Word) : State :=
  let a : Word := BitVec.ofNat 32 (s.pc.toNat / 4 * 4)
  let p : Params :=
    if hasBytes s.params a 4 then s.params
    else { s.params with memValid := { base := a.toNat, size := 4 } :: s.params.memValid }
  State.memWrite { s with pc := a, params := p } a 4 w

end Sys2Proof.Machine
end

