-- ==== Sys2Proof/Machine/Step.lean ====
section
/-! DEFINITION. One step: one instruction (00_scope.md R12). -/

namespace Sys2Proof.Machine

/-- Fetch, decode, execute; the fault of the earliest phase that has one is the step's (60_exceptions.md R237). -/
def step (s : State) : Host.Outcome State Fault Refusal :=
  match fetchInstr s with
  | .error f => raise f
  | .ok i => exec i s

/-- `s` with the instruction whose bits are `w` where the next step fetches (bits above `nbits` are 0). Log 24. -/
def State.withFetchWord (s : State) (nbits w : Nat) : State := placeWord s (BitVec.ofNat 32 (w % 2 ^ nbits))

end Sys2Proof.Machine
end

