-- ==== Sys2Proof/Safety.lean ====
section
/-! DEFINITION. The terms claims use: a run and its end (70_reset_and_hazards.md R275), what a safe run is, and what each
instruction may read and write (10_state.md R29, R33). No claim made with these words says what the hardware does after a fault (60_exceptions.md
R231), and each holds only while no interrupt arrives (R238; log 19). -/

namespace Sys2Proof.Machine

/-! ## Runs -/

/-- A run after some steps: going on, or stopped for good with the state the stop left (10_state.md R38: "keeps the fault, once raised, for the
rest of the run"; log 15). -/
inductive Run where
  | running (s : State)
  | faulted (s : State) (f : Fault)
  | refused (s : State) (r : Refusal)
deriving DecidableEq, Repr

/-- One more step of a run; a stopped run takes none (60_exceptions.md R231). -/
def advanceRun : Run → Run
  | .running s =>
    match step s with
    | .next t => .running t
    | .fault f => .faulted s f
    | .refused r => .refused s r
  | stopped => stopped

/-- A run after `k` steps. -/
def runSteps : Nat → Run → Run
  | 0, r => r
  | k + 1, r => runSteps k (advanceRun r)

/-- The run from `s` is complete after `k` steps in `t` (70_reset_and_hazards.md R275): `t` is the first state, after zero or more
steps, whose `pc` is END_PC, and no fault has been raised. -/
def completesAt (endPc : Word) (k : Nat) (s t : State) : Prop :=
  runSteps k (.running s) = .running t ∧ t.pc = endPc ∧
    ∀ j, j < k → ∀ u, runSteps j (.running s) = .running u → u.pc ≠ endPc

/-- The run from `s`, stopped at END_PC, for at most `fuel` steps. -/
def runUntil (endPc : Word) : Nat → State → Run
  | 0, s => .running s
  | fuel + 1, s =>
    if s.pc = endPc then .running s
    else
      match step s with
      | .next t => runUntil endPc fuel t
      | .fault f => .faulted s f
      | .refused r => .refused s r

/-- RESET_PC as 70_reset_and_hazards.md R271 asks for it: aligned, with its four bytes in MEM_VALID. -/
def bootOk (p : Params) (resetPc : Word) : Bool := resetPcWf resetPc && hasBytes p resetPc 4

/-- The invariant every step keeps: memory in its canonical form, and legal parameters. -/
def State.Inv (s : State) : Prop := s.mem.wf = true ∧ s.params.wf = true

/-! ## What an instruction may touch -/

/-- The register an instruction writes (10_state.md R29, column "writes"). -/
def destOf : Instr → Option RegIdx
  | .add rA _ | .mul rA _ | .sub rA _ | .and rA _ | .or rA _ | .xor rA _ | .shiftl rA _ | .shiftr rA _ | .shiftrs rA _ => some rA
  | .inc rA | .dec rA | .not rA => some rA
  | .lw rA _ | .ls rA _ | .lb rA _ => some rA
  | .cmp _ _ | .cmpu _ _ | .stw _ _ | .sts _ _ | .stb _ _ => none
  | .j _ | .be _ | .bne _ | .bz _ | .bnz _ | .bo _ | .bno _ | .bs _ | .bns _ | .bl _ | .bge _ | .bg _ | .ble _ => none

/-- The registers of an operand `rB|i15`. -/
def regsOfSrc : Src → List RegIdx
  | .reg rB => [rB]
  | .imm _ => []

/-- The base register of an address operand. -/
def baseOf : Target → RegIdx
  | .base rB => rB
  | .disp rB _ => rB

/-- The register of a conditional branch that is taken. -/
def regsOfBranch (taken : Bool) : BranchTo → List RegIdx
  | .reg r => if taken then [r] else []
  | .rel _ => []

/-- The registers an instruction reads (10_state.md R29, column "reads"); a conditional branch reads one only when its test holds. -/
def readsOf (f : Flags) : Instr → List RegIdx
  | .add rA src | .mul rA src | .sub rA src | .and rA src | .or rA src | .xor rA src | .shiftl rA src | .shiftr rA src
  | .shiftrs rA src | .cmp rA src | .cmpu rA src => rA :: regsOfSrc src
  | .inc rA | .dec rA | .not rA => [rA]
  | .lw _ t | .ls _ t | .lb _ t => [baseOf t]
  | .stw t rA | .sts t rA | .stb t rA => [baseOf t, rA]
  | .j (.reg r) => [r]
  | .j (.rel _) => []
  | .be d => regsOfBranch (testHolds .e f) d
  | .bne d => regsOfBranch (testHolds .ne f) d
  | .bz d => regsOfBranch (testHolds .z f) d
  | .bnz d => regsOfBranch (testHolds .nz f) d
  | .bo d => regsOfBranch (testHolds .o f) d
  | .bno d => regsOfBranch (testHolds .no f) d
  | .bs d => regsOfBranch (testHolds .s f) d
  | .bns d => regsOfBranch (testHolds .ns f) d
  | .bl d => regsOfBranch (testHolds .l f) d
  | .bge d => regsOfBranch (testHolds .ge f) d
  | .bg d => regsOfBranch (testHolds .g f) d
  | .ble d => regsOfBranch (testHolds .le f) d

/-- The flags an instruction writes, the table of 10_state.md R33: `true` where it has `w`, `false` where it has `-`. -/
def flagsWritten : Instr → Flags
  | .add _ _ | .dec _ | .inc _ | .mul _ _ => { e := false, z := true, o := true, s := true }
  | .sub _ _ | .and _ _ | .not _ | .or _ _ | .shiftl _ _ | .shiftr _ _ | .shiftrs _ _ | .xor _ _ =>
    { e := false, z := true, o := false, s := true }
  | .cmp _ _ | .cmpu _ _ => { e := true, z := true, o := false, s := true }
  | .lw _ _ | .ls _ _ | .lb _ _ => { e := false, z := true, o := false, s := true }
  | .j _ | .be _ | .bne _ | .bz _ | .bnz _ | .bo _ | .bno _ | .bs _ | .bns _ | .bl _ | .bge _ | .bg _ | .ble _
  | .stw _ _ | .sts _ _ | .stb _ _ => { e := false, z := false, o := false, s := false }

/-- The flags of `written` where a mask says so, those of `kept` elsewhere. -/
def Flags.merge (mask written kept : Flags) : Flags :=
  { e := if mask.e then written.e else kept.e, z := if mask.z then written.z else kept.z,
    o := if mask.o then written.o else kept.o, s := if mask.s then written.s else kept.s }

/-- The instruction is one of the twelve conditional branches. -/
def isBranch (i : Instr) : Bool := operationOf i == .branch

/-- The instruction is `j` or a conditional branch: the only ones that write `pc` other than by the advance (10_state.md R25, R26). -/
def isJump (i : Instr) : Bool := isBranch i || operationOf i == .j

/-- The address and size of the bytes an instruction stores, with the effective address its meaning uses (45_memory_access.md R210, R218). -/
def storesTo (i : Instr) (s : State) : Option (Word × Nat) :=
  match i with
  | .stw t _ => some (s.ea t, 4)
  | .sts t _ => some (s.ea t, 2)
  | .stb t _ => some (s.ea t, 1)
  | _ => none

/-- The address and size of the bytes an instruction loads (45_memory_access.md R210, R218). -/
def loadsFrom (i : Instr) (s : State) : Option (Word × Nat) :=
  match i with
  | .lw _ t => some (s.ea t, 4)
  | .ls _ t => some (s.ea t, 2)
  | .lb _ t => some (s.ea t, 1)
  | _ => none

/-- The byte at an address, as the machine reads it. -/
def State.byteAt (s : State) (x : Word) : Byte := s.mem.readByte x.toNat

/-- `x` is one of the `n` bytes from `a` on, addresses modulo 2^32. -/
def inBytes (a : Word) (n : Nat) (x : Word) : Prop := (x - a).toNat < n

/-- A result's next state changed by `g`; a fault or a refusal stays. -/
def mapNext (g : State → State) : Result → Result
  | .next t => .next (g t)
  | .fault f => .fault f
  | .refused r => .refused r

/-- `t` is `s` after an instruction that writes the register `rA` and the flags and advances: nothing else has changed. -/
def wroteReg (s t : State) (rA : RegIdx) (v : Word) (f : Flags) : Prop :=
  t.reg rA = v ∧ (∀ r, r ≠ rA → t.reg r = s.reg r) ∧ t.flags = f ∧ t.pc = s.pc + 4 ∧ t.mem = s.mem ∧ t.params = s.params

/-- The flags `z` and `s` from a result, bit by bit as 10_state.md R31 writes them; `e` and `o` as in `f`. -/
def zsFrom (f : Flags) (v : Word) : Flags := { f with z := decide (v.toNat = 0), s := v.getLsbD 31 }

/-- The byte MemWrite puts at `addr + i` of a cell of `n` bytes (20_memory.md R50: `v[8i+7:8i]`; from the other end under `big`). -/
def storedByte (order : ByteOrder) (n : Nat) (v : Word) (i : Nat) : Byte :=
  match order with
  | .little => v.extractLsb' (8 * i) 8
  | .big => v.extractLsb' (8 * (n - 1 - i)) 8

/-- `t` is `s` after an instruction that stores the low `8 * n` bits of `v` at `a` and advances: nothing else has changed. -/
def wroteCell (s t : State) (a : Word) (n : Nat) (v : Word) : Prop :=
  t.regs = s.regs ∧ t.flags = s.flags ∧ t.pc = s.pc + 4 ∧ t.params = s.params ∧
    (∀ i, i < n → t.byteAt (a + BitVec.ofNat 32 i) = storedByte s.params.byteOrder n v i) ∧
    ∀ x, ¬ inBytes a n x → t.byteAt x = s.byteAt x

/-- `t` is `s` but for `pc`: nothing else has changed. -/
def wentTo (s t : State) (target : Word) : Prop :=
  t.pc = target ∧ t.regs = s.regs ∧ t.flags = s.flags ∧ t.mem = s.mem ∧ t.params = s.params

end Sys2Proof.Machine
end

