-- ==== Sys2Proof/Certificates/Slice0/Obligations.lean ====
section
/-! DEFINITION. What the model claims, from the numbered rules of spec/. A statement over all states holds for every value of the parameters
in `State.params` unless it names one; D<n> is a decision of spec/92_eei_decisions.md, which the spec marks as its own. -/

open Sys2Proof Sys2Proof.Machine

/-! ## Words and instructions -/

/-- Under every injective OPMAP (30_encoding.md R95), decoding the word of an instruction gives the instruction back: no operand bit is dropped. -/
def Obligations.DecodeOfEncode : Prop :=
  ∀ m : OpMap, m.wf = true → ∀ i : Instr, decode m (encode m i) = .ok i

/-- Unused fields are ignored on decode and written as zeros (30_encoding.md R89, decision D10; log 17): a word that decodes to `i` is `encode i`
in the bits `i` uses, and every word that agrees with it there decodes to `i`. -/
def Obligations.UnusedFieldsAreIgnored : Prop :=
  ∀ (m : OpMap) (w : Word) (i : Instr), decode m w = .ok i →
    encode m i = w &&& usedBits i ∧ ∀ w' : Word, w' &&& usedBits i = w &&& usedBits i → decode m w' = .ok i

/-- The illegal encodings are exactly an unassigned `OP` and a BRANCH with `F` of 6 or 7 (30_encoding.md R98, derived there from R91, R96, decisions D8, D9). -/
def Obligations.IllegalWordsAreExactlyReserved : Prop :=
  ∀ m : OpMap, m.wf = true → ∀ w : Word,
    (∃ i, decode m w = .ok i) ↔ opField w ∈ m.codes ∧ (opField w = m.branch → w.toNat / 2 ^ 11 % 8 < 6)

/-- The bit layout of the five formats (30_encoding.md R81 to R85): each word is the sum of its fields at the positions of the tables, and fields
and word determine each other. -/
def Obligations.FormatLayouts : Prop :=
  (∀ w, packR (unpackR w) = w ∧
    w.toNat = (unpackR w).i15.toNat * 2 ^ 17 + (unpackR w).I.toNat * 2 ^ 16 + (unpackR w).rB.toNat * 2 ^ 11 +
      (unpackR w).rA.toNat * 2 ^ 6 + (unpackR w).op.toNat) ∧
  (∀ w, packC (unpackC w) = w ∧
    w.toNat = (unpackC w).i16.toNat * 2 ^ 16 + (unpackC w).I.toNat * 2 ^ 15 + (unpackC w).V.toNat * 2 ^ 14 +
      (unpackC w).F.toNat * 2 ^ 11 + (unpackC w).r.toNat * 2 ^ 6 + (unpackC w).op.toNat) ∧
  (∀ w, packS (unpackS w) = w ∧
    w.toNat = (unpackS w).i12.toNat * 2 ^ 20 + (unpackS w).V.toNat * 2 ^ 19 + (unpackS w).F.toNat * 2 ^ 16 +
      (unpackS w).rB.toNat * 2 ^ 11 + (unpackS w).rA.toNat * 2 ^ 6 + (unpackS w).op.toNat) ∧
  (∀ w, packI (unpackI w) = w ∧
    w.toNat = (unpackI w).i20.toNat * 2 ^ 12 + (unpackI w).I.toNat * 2 ^ 11 + (unpackI w).r.toNat * 2 ^ 6 +
      (unpackI w).op.toNat) ∧
  (∀ w, packA (unpackA w) = w ∧
    w.toNat = (unpackA w).unused.toNat * 2 ^ 21 + (unpackA w).rC.toNat * 2 ^ 16 + (unpackA w).rB.toNat * 2 ^ 11 +
      (unpackA w).rA.toNat * 2 ^ 6 + (unpackA w).op.toNat) ∧
  (∀ f, unpackR (packR f) = f) ∧ (∀ f, unpackC (packC f) = f) ∧ (∀ f, unpackS (packS f) = f) ∧
  (∀ f, unpackI (packI f) = f) ∧ (∀ f, unpackA (packA f) = f)

/-- One word per family, written out from the formats' tables, decodes to its instruction under the default OPMAP (95_test_vectors.md section 2; log 7). -/
def Obligations.SpecWordsDecode : Prop :=
  decode defaultOpMap 0b00000000000010110000000001011100 = .ok (.add 1 (.imm 5)) ∧
  decode defaultOpMap 0b00000000000000000001000001100010 = .ok (.and 1 (.reg 2)) ∧
  decode defaultOpMap 0b11111111111111111111100000101110 = .ok (.j (.rel 0xFFFFF)) ∧
  decode defaultOpMap 0b11111111111111011000100000110010 = .ok (.bnz (.rel 0xFFFD)) ∧
  decode defaultOpMap 0b11111111111111110000000001110000 = .ok (.cmpu 1 (.imm 0x7FFF)) ∧
  decode defaultOpMap 0b11111111111110011111100001000001 = .ok (.lw 1 (.disp 31 0x7FFC)) ∧
  decode defaultOpMap 0b11111111111110011111111110000100 = .ok (.stw (.disp 31 0x7FFC) 30)

/-- Laid out as bytes and read as the opcode table numbers them, every instruction's word decodes to it (30_encoding.md R97, 20_memory.md R51; logs 7, 9). -/
def Obligations.TableWordDecodes : Prop :=
  ∀ i : Instr, decodeTableWord 32 (encode defaultOpMap i).toNat = some i

/-- The Conditional flags table (30_encoding.md R90), its twelve rows: the test each `F`, `V` selects and when it is true; and
`cond(F, V) = (flagval(F) = V)`. -/
def Obligations.ConditionTable : Prop :=
  (testOf 0 1 = some .e ∧ testOf 0 0 = some .ne ∧ testOf 1 1 = some .z ∧ testOf 1 0 = some .nz ∧
    testOf 2 1 = some .o ∧ testOf 2 0 = some .no ∧ testOf 3 1 = some .s ∧ testOf 3 0 = some .ns ∧
    testOf 4 1 = some .l ∧ testOf 4 0 = some .ge ∧ testOf 5 1 = some .g ∧ testOf 5 0 = some .le) ∧
  ∀ f : Flags,
    ((testHolds .e f = true ↔ f.e = true) ∧ (testHolds .ne f = true ↔ f.e = false) ∧
      (testHolds .z f = true ↔ f.z = true) ∧ (testHolds .nz f = true ↔ f.z = false) ∧
      (testHolds .o f = true ↔ f.o = true) ∧ (testHolds .no f = true ↔ f.o = false) ∧
      (testHolds .s f = true ↔ f.s = true) ∧ (testHolds .ns f = true ↔ f.s = false) ∧
      (testHolds .l f = true ↔ f.e = false ∧ f.s = true) ∧ (testHolds .ge f = true ↔ f.e = true ∨ f.s = false) ∧
      (testHolds .g f = true ↔ f.e = false ∧ f.s = false) ∧ (testHolds .le f = true ↔ f.e = true ∨ f.s = true)) ∧
    ∀ (F : BitVec 3) (V : BitVec 1) (t : Test), testOf F V = some t → (testHolds t f = true ↔ flagVal F f = some (V == 1))

/-- The condition field of a test selects that test, and only `F` of 6 and 7 select none (30_encoding.md R91, decision D9). -/
def Obligations.ReservedConditionFields : Prop :=
  (∀ t : Test, testOf t.F t.V = some t) ∧ ∀ (F : BitVec 3) (V : BitVec 1), testOf F V = none ↔ F = 6 ∨ F = 7

/-- The field of a written integer extends to that integer, and the integers that have one are the ranges of 30_encoding.md R104: the signed ranges, and the unsigned one of `cmpu`.
That exactly these are accepted is the model's choice (DEDUCED, log 30): R104 derives the ranges and says that the acceptance of an unsigned spelling of a negative value
"is not stated"; the model refuses one. -/
def Obligations.WrittenImmediatesFit : Prop :=
  (∀ v : Int, (∃ f, writtenImm 15 v = some f) ↔ -16384 ≤ v ∧ v ≤ 16383) ∧
  (∀ v : Int, (∃ f, writtenImm 16 v = some f) ↔ -32768 ≤ v ∧ v ≤ 32767) ∧
  (∀ v : Int, (∃ f, writtenImm 20 v = some f) ↔ -524288 ≤ v ∧ v ≤ 524287) ∧
  (∀ v : Int, (∃ f, writtenUImm 15 v = some f) ↔ 0 ≤ v ∧ v ≤ 32767) ∧
  (∀ (v : Int) f, writtenImm 15 v = some f → (sext f).toInt = v) ∧
  (∀ (v : Int) f, writtenImm 16 v = some f → (sext f).toInt = v) ∧
  (∀ (v : Int) f, writtenImm 20 v = some f → (sext f).toInt = v) ∧
  ∀ (v : Int) f, writtenUImm 15 v = some f → ((zext f).toNat : Int) = v

/-- The field a label operand encodes (30_encoding.md R103, decision D28) makes the branch at that address go to the label, under
`BRANCH_BASE = next` (D15; log 14). -/
def Obligations.LabelFieldReachesLabel : Prop :=
  ∀ (s : State) (L : Word), s.params.branchBase = .next →
    (∀ f, labelField 20 s.pc L = some f → s.jumpTarget (.rel f) = L) ∧
    ∀ f, labelField 16 s.pc L = some f → s.branchTarget (.rel f) = L

/-! ## Operands -/

/-- The second operand and the effective address (30_encoding.md R87; 45_memory_access.md R210): the immediate is sign-extended, for `cmpu`
zero-extended; the address is the base, or the base plus the sign-extended byte offset modulo 2^32. -/
def Obligations.OperandValues : Prop :=
  ∀ s : State,
    (∀ rB, s.op2 (.reg rB) = s.reg rB ∧ s.op2u (.reg rB) = s.reg rB ∧ s.ea (.base rB) = s.reg rB) ∧
    (∀ i15, (s.op2 (.imm i15)).toInt = i15.toInt ∧ -16384 ≤ (s.op2 (.imm i15)).toInt ∧ (s.op2 (.imm i15)).toInt ≤ 16383) ∧
    (∀ i15, (s.op2u (.imm i15)).toNat = i15.toNat ∧ (s.op2u (.imm i15)).toNat ≤ 32767) ∧
    ∀ rB i15, ((s.ea (.disp rB i15)).toNat : Int) = ((s.reg rB).toNat + i15.toInt) % 2 ^ 32

/-- The target of `j` and of a taken `b*` (30_encoding.md R88; 42_branching.md R160): a register is absolute; an immediate is sign-extended, times 4, and
added modulo 2^32 to `npc` (decision D15: to `pc` under `BRANCH_BASE = self`; log 14). -/
def Obligations.BranchTargets : Prop :=
  ∀ s : State,
    (∀ r, s.jumpTarget (.reg r) = s.reg r ∧ s.branchTarget (.reg r) = s.reg r) ∧
    (∀ i20, ((s.jumpTarget (.rel i20)).toNat : Int) =
      (s.pc.toNat + (if s.params.branchBase = .next then 4 else 0) + 4 * i20.toInt) % 2 ^ 32) ∧
    ∀ i16, ((s.branchTarget (.rel i16)).toNat : Int) =
      (s.pc.toNat + (if s.params.branchBase = .next then 4 else 0) + 4 * i16.toInt) % 2 ^ 32

/-! ## A step -/

/-- When the four bytes at an aligned `pc` decode to an instruction, the step is that instruction's meaning (00_scope.md R12, decisions D16, D18). Every
`Instr` is well formed (60_exceptions.md R233), and nothing is added around `exec`: the meaning itself writes `pc`. -/
def Obligations.StepRunsDecodedInstruction : Prop :=
  ∀ (s : State) (i : Instr), s.pc.toNat % 4 = 0 → hasBytes s.params s.pc 4 = true →
    decode s.params.opMap (s.memRead s.pc 4) = .ok i → step s = exec i s

/-- The faults of a step, what each records, and their order (60_exceptions.md R232, R237; 45_memory_access.md R220; decisions D4, D5, D7, D8, D18, D29):
a step faults with `f` exactly in these cases. -/
def Obligations.StepFaultsInOrder : Prop :=
  ∀ (s : State) (f : Fault), step s = .fault f ↔
    s.pc.toNat % 4 ≠ 0 ∧ f = .misalignedFetch s.pc ∨
    s.pc.toNat % 4 = 0 ∧ hasBytes s.params s.pc 4 = false ∧ f = .accessFault s.pc 4 .fetch ∨
    s.pc.toNat % 4 = 0 ∧ hasBytes s.params s.pc 4 = true ∧
      ((∃ d, decode s.params.opMap (s.memRead s.pc 4) = .error d) ∧ f = .illegalInstruction (s.memRead s.pc 4) ∨
       ∃ i ea n kind, decode s.params.opMap (s.memRead s.pc 4) = .ok i ∧
        (loadsFrom i s = some (ea, n) ∧ kind = .load ∨ storesTo i s = some (ea, n) ∧ kind = .store) ∧
        (ea.toNat % n ≠ 0 ∧ f = .misalignedAccess ea n ∨
         ea.toNat % n = 0 ∧ hasBytes s.params ea n = false ∧ f = .accessFault ea n kind))

/-- Every instruction of the table is modelled: no step is refused. -/
def Obligations.StepIsNeverRefused : Prop := ∀ (s : State) (r : Refusal), step s ≠ .refused r

/-- Only the loads and stores can fault after a successful fetch and decode (40_arithmetic.md R120; 41_bitwise.md R140; 44_comparison.md R200;
42_branching.md R161, R162): every other instruction completes in every state. -/
def Obligations.OnlyMemoryAccessFaults : Prop :=
  ∀ (i : Instr) (s : State), loadsFrom i s = none → storesTo i s = none → ∃ t, exec i s = .next t

/-- Loading an instruction where the next fetch reads makes the next step run it, in every state with legal parameters and canonical memory (log 24). -/
def Obligations.PlacedInstructionRuns : Prop :=
  ∀ (s : State) (i : Instr), s.Inv →
    step (s.withFetchWord 32 (encode s.params.opMap i).toNat) = exec i (s.withFetchWord 32 (encode s.params.opMap i).toNat) ∧
    (s.withFetchWord 32 (encode s.params.opMap i).toNat).regs = s.regs ∧
    (s.withFetchWord 32 (encode s.params.opMap i).toNat).flags = s.flags

/-! ## Invariants and reset -/

/-- Every step keeps memory in its canonical form and the parameters legal, and changes no parameter (00_scope.md R8; 10_state.md R37; log 1). -/
def Obligations.StepKeepsInvariant : Prop :=
  ∀ s t : State, step s = .next t → s.Inv → t.Inv ∧ t.params = s.params

/-- The reset state meets the invariant, and its RESET_PC is one a run can start at (70_reset_and_hazards.md R271; the values are the model's choice: logs 2, 3, 6). -/
def Obligations.ResetMeetsInvariant : Prop :=
  State.reset.Inv ∧ bootOk State.reset.params State.reset.pc = true

/-- Reset puts RESET_PC into `pc` and the launch image into memory, whatever the registers and flags (10_state.md R40; 70_reset_and_hazards.md R270, R271,
decision D21): the first fetch succeeds exactly when RESET_PC is a multiple of 4 with its four bytes in MEM_VALID, and reads the image. -/
def Obligations.ResetFetchesLaunchImage : Prop :=
  ∀ (p : Params) (resetPc : Word) (regs : Vector Word 32) (f : Flags) (image : Memory) (w : Word),
    fetchWord (State.resetWith p resetPc regs f image) = .ok w ↔
      bootOk p resetPc = true ∧ w = cellValue p.byteOrder (image.readBytes resetPc 4)

/-- Two memories in the canonical form that read alike at every address are equal: the form loses nothing and repeats nothing (10_state.md R37). -/
def Obligations.CanonicalMemoryIsUnique : Prop :=
  ∀ m m' : Memory, m.wf = true → m'.wf = true → (∀ x : Word, m.readByte x.toNat = m'.readByte x.toNat) → m = m'

/-! ## Arithmetic (40_arithmetic.md). Results modulo 2^32 (decision D30), `z` and `s` from the result (D11), `o` by OVERFLOW_RULE (D12): logs 11, 21, 26. -/

/-- `add` (R121): the sum, Z, O, S; `e`, every other register and memory are unchanged. -/
def Obligations.AddResult : Prop :=
  ∀ (rA : RegIdx) (src : Src) (s : State), ∃ t, exec (.add rA src) s = .next t ∧
    wroteReg s t rA (BitVec.ofNat 32 ((s.reg rA).toNat + (s.op2 src).toNat))
      { zsFrom s.flags (BitVec.ofNat 32 ((s.reg rA).toNat + (s.op2 src).toNat)) with
        o := overflow s.params.overflowRule .add (s.reg rA) (s.op2 src) }

/-- `dec` (R122): one less, Z, O, S. -/
def Obligations.DecResult : Prop :=
  ∀ (rA : RegIdx) (s : State), ∃ t, exec (.dec rA) s = .next t ∧
    wroteReg s t rA (BitVec.ofInt 32 ((s.reg rA).toNat - 1))
      { zsFrom s.flags (BitVec.ofInt 32 ((s.reg rA).toNat - 1)) with
        o := overflow s.params.overflowRule .dec (s.reg rA) 1 }

/-- `inc` (R123): one more, Z, O, S. -/
def Obligations.IncResult : Prop :=
  ∀ (rA : RegIdx) (s : State), ∃ t, exec (.inc rA) s = .next t ∧
    wroteReg s t rA (BitVec.ofNat 32 ((s.reg rA).toNat + 1))
      { zsFrom s.flags (BitVec.ofNat 32 ((s.reg rA).toNat + 1)) with
        o := overflow s.params.overflowRule .inc (s.reg rA) 1 }

/-- `mul` (R124): the low 32 bits of the product, Z, O, S. -/
def Obligations.MulResult : Prop :=
  ∀ (rA : RegIdx) (src : Src) (s : State), ∃ t, exec (.mul rA src) s = .next t ∧
    wroteReg s t rA (BitVec.ofNat 32 ((s.reg rA).toNat * (s.op2 src).toNat))
      { zsFrom s.flags (BitVec.ofNat 32 ((s.reg rA).toNat * (s.op2 src).toNat)) with
        o := overflow s.params.overflowRule .mul (s.reg rA) (s.op2 src) }

/-- `sub` (R125): the difference, Z, S only: `o` and `e` are unchanged. -/
def Obligations.SubResult : Prop :=
  ∀ (rA : RegIdx) (src : Src) (s : State), ∃ t, exec (.sub rA src) s = .next t ∧
    wroteReg s t rA (BitVec.ofInt 32 ((s.reg rA).toNat - (s.op2 src).toNat))
      (zsFrom s.flags (BitVec.ofInt 32 ((s.reg rA).toNat - (s.op2 src).toNat)))

/-- OVERFLOW_RULE (R120, decision D12): `unsigned` says that the exact unsigned result leaves 0 .. 2^32-1, `signed` that the exact signed one leaves
-2^31 .. 2^31-1; any other function is free. -/
def Obligations.OverflowRules : Prop :=
  ∀ a b : Word,
    (overflow .unsigned .add a b = true ↔ 2 ^ 32 ≤ a.toNat + b.toNat) ∧
    (overflow .unsigned .inc a b = true ↔ a = 0xFFFFFFFF) ∧
    (overflow .unsigned .dec a b = true ↔ a = 0) ∧
    (overflow .unsigned .mul a b = true ↔ 2 ^ 32 ≤ a.toNat * b.toNat) ∧
    (overflow .signed .add a b = true ↔ (a + b).toInt ≠ a.toInt + b.toInt) ∧
    (overflow .signed .inc a b = true ↔ a = 0x7FFFFFFF) ∧
    (overflow .signed .dec a b = true ↔ a = 0x80000000) ∧
    (overflow .signed .mul a b = true ↔ (a * b).toInt ≠ a.toInt * b.toInt)

/-! ## Bitwise (41_bitwise.md). `z` and `s` from the result (decision D11), `e` and `o` unchanged (R140): log 21. -/

/-- `and`, `or`, `xor`, `not` (R141, R143, R147, R142), bit by bit. -/
def Obligations.LogicResults : Prop :=
  ∀ (rA : RegIdx) (src : Src) (s : State),
    (∃ t v, exec (.and rA src) s = .next t ∧ wroteReg s t rA v (zsFrom s.flags v) ∧
      ∀ i, i < 32 → v.getLsbD i = ((s.reg rA).getLsbD i && (s.op2 src).getLsbD i)) ∧
    (∃ t v, exec (.or rA src) s = .next t ∧ wroteReg s t rA v (zsFrom s.flags v) ∧
      ∀ i, i < 32 → v.getLsbD i = ((s.reg rA).getLsbD i || (s.op2 src).getLsbD i)) ∧
    (∃ t v, exec (.xor rA src) s = .next t ∧ wroteReg s t rA v (zsFrom s.flags v) ∧
      ∀ i, i < 32 → v.getLsbD i = ((s.reg rA).getLsbD i ^^ (s.op2 src).getLsbD i)) ∧
    ∃ t v, exec (.not rA) s = .next t ∧ wroteReg s t rA v (zsFrom s.flags v) ∧
      ∀ i, i < 32 → v.getLsbD i = !(s.reg rA).getLsbD i

/-- `shiftl`, `shiftr`, `shiftrs` (R144, R145, R146, R148): the mathematical shift by the whole second operand read as unsigned, or by its remainder by 32
under `SHIFT_OVER = mod32` (decision D14; log 13). -/
def Obligations.ShiftResults : Prop :=
  ∀ (rA : RegIdx) (src : Src) (s : State) (n : Nat),
    n = (if s.params.shiftOver = .allOut then (s.op2 src).toNat else (s.op2 src).toNat % 32) →
    (∃ t, exec (.shiftl rA src) s = .next t ∧
      wroteReg s t rA (BitVec.ofNat 32 ((s.reg rA).toNat * 2 ^ n)) (zsFrom s.flags (BitVec.ofNat 32 ((s.reg rA).toNat * 2 ^ n)))) ∧
    (∃ t, exec (.shiftr rA src) s = .next t ∧
      wroteReg s t rA (BitVec.ofNat 32 ((s.reg rA).toNat / 2 ^ n)) (zsFrom s.flags (BitVec.ofNat 32 ((s.reg rA).toNat / 2 ^ n)))) ∧
    ∃ t, exec (.shiftrs rA src) s = .next t ∧
      wroteReg s t rA (BitVec.ofInt 32 ((s.reg rA).toInt / 2 ^ n)) (zsFrom s.flags (BitVec.ofInt 32 ((s.reg rA).toInt / 2 ^ n)))

/-! ## Branching (42_branching.md) -/

/-- `j` (R161) goes to its target and changes nothing else; the target's value is `BranchTargets`. -/
def Obligations.JumpResult : Prop :=
  ∀ (dst : JumpTo) (s : State), ∃ t, exec (.j dst) s = .next t ∧ wentTo s t (s.jumpTarget dst)

/-- The twelve conditional branches (R163 to R174): each one's `F` and `V`, its words under the default OPMAP, and when it is taken; taken, it goes to its
target, otherwise to `npc`, and nothing else changes. The words are those the twelve rules give; the `OP` value in them is the default of R95 (D1; log 7). -/
def Obligations.ConditionalBranches : Prop :=
  (∀ (dst : BranchTo) (s : State),
    (∃ t, exec (.be dst) s = .next t ∧ wentTo s t (if s.flags.e = true then s.branchTarget dst else s.npc)) ∧
    (∃ t, exec (.bne dst) s = .next t ∧ wentTo s t (if s.flags.e = false then s.branchTarget dst else s.npc)) ∧
    (∃ t, exec (.bz dst) s = .next t ∧ wentTo s t (if s.flags.z = true then s.branchTarget dst else s.npc)) ∧
    (∃ t, exec (.bnz dst) s = .next t ∧ wentTo s t (if s.flags.z = false then s.branchTarget dst else s.npc)) ∧
    (∃ t, exec (.bo dst) s = .next t ∧ wentTo s t (if s.flags.o = true then s.branchTarget dst else s.npc)) ∧
    (∃ t, exec (.bno dst) s = .next t ∧ wentTo s t (if s.flags.o = false then s.branchTarget dst else s.npc)) ∧
    (∃ t, exec (.bs dst) s = .next t ∧ wentTo s t (if s.flags.s = true then s.branchTarget dst else s.npc)) ∧
    (∃ t, exec (.bns dst) s = .next t ∧ wentTo s t (if s.flags.s = false then s.branchTarget dst else s.npc)) ∧
    (∃ t, exec (.bl dst) s = .next t ∧
      wentTo s t (if s.flags.e = false ∧ s.flags.s = true then s.branchTarget dst else s.npc)) ∧
    (∃ t, exec (.bge dst) s = .next t ∧
      wentTo s t (if s.flags.e = true ∨ s.flags.s = false then s.branchTarget dst else s.npc)) ∧
    (∃ t, exec (.bg dst) s = .next t ∧
      wentTo s t (if s.flags.e = false ∧ s.flags.s = false then s.branchTarget dst else s.npc)) ∧
    ∃ t, exec (.ble dst) s = .next t ∧
      wentTo s t (if s.flags.e = true ∨ s.flags.s = true then s.branchTarget dst else s.npc)) ∧
  (∀ (m : OpMap) (dst : BranchTo),
    ((unpackC (encode m (.be dst))).F = 0 ∧ (unpackC (encode m (.be dst))).V = 1) ∧
    ((unpackC (encode m (.bne dst))).F = 0 ∧ (unpackC (encode m (.bne dst))).V = 0) ∧
    ((unpackC (encode m (.bz dst))).F = 1 ∧ (unpackC (encode m (.bz dst))).V = 1) ∧
    ((unpackC (encode m (.bnz dst))).F = 1 ∧ (unpackC (encode m (.bnz dst))).V = 0) ∧
    ((unpackC (encode m (.bo dst))).F = 2 ∧ (unpackC (encode m (.bo dst))).V = 1) ∧
    ((unpackC (encode m (.bno dst))).F = 2 ∧ (unpackC (encode m (.bno dst))).V = 0) ∧
    ((unpackC (encode m (.bs dst))).F = 3 ∧ (unpackC (encode m (.bs dst))).V = 1) ∧
    ((unpackC (encode m (.bns dst))).F = 3 ∧ (unpackC (encode m (.bns dst))).V = 0) ∧
    ((unpackC (encode m (.bl dst))).F = 4 ∧ (unpackC (encode m (.bl dst))).V = 1) ∧
    ((unpackC (encode m (.bge dst))).F = 4 ∧ (unpackC (encode m (.bge dst))).V = 0) ∧
    ((unpackC (encode m (.bg dst))).F = 5 ∧ (unpackC (encode m (.bg dst))).V = 1) ∧
    ((unpackC (encode m (.ble dst))).F = 5 ∧ (unpackC (encode m (.ble dst))).V = 0)) ∧
  (encode defaultOpMap (.be (.rel 1)) = 0x0001C032 ∧ encode defaultOpMap (.be (.reg 2)) = 0x000040B2 ∧
    encode defaultOpMap (.bne (.rel 1)) = 0x00018032 ∧ encode defaultOpMap (.bne (.reg 2)) = 0x000000B2 ∧
    encode defaultOpMap (.bz (.rel 1)) = 0x0001C832 ∧ encode defaultOpMap (.bz (.reg 2)) = 0x000048B2 ∧
    encode defaultOpMap (.bnz (.rel 1)) = 0x00018832 ∧ encode defaultOpMap (.bnz (.reg 2)) = 0x000008B2 ∧
    encode defaultOpMap (.bo (.rel 1)) = 0x0001D032 ∧ encode defaultOpMap (.bo (.reg 2)) = 0x000050B2 ∧
    encode defaultOpMap (.bno (.rel 1)) = 0x00019032 ∧ encode defaultOpMap (.bno (.reg 2)) = 0x000010B2 ∧
    encode defaultOpMap (.bs (.rel 1)) = 0x0001D832 ∧ encode defaultOpMap (.bs (.reg 2)) = 0x000058B2 ∧
    encode defaultOpMap (.bns (.rel 1)) = 0x00019832 ∧ encode defaultOpMap (.bns (.reg 2)) = 0x000018B2 ∧
    encode defaultOpMap (.bl (.rel 1)) = 0x0001E032 ∧ encode defaultOpMap (.bl (.reg 2)) = 0x000060B2 ∧
    encode defaultOpMap (.bge (.rel 1)) = 0x0001A032 ∧ encode defaultOpMap (.bge (.reg 2)) = 0x000020B2 ∧
    encode defaultOpMap (.bg (.rel 1)) = 0x0001E832 ∧ encode defaultOpMap (.bg (.reg 2)) = 0x000068B2 ∧
    encode defaultOpMap (.ble (.rel 1)) = 0x0001A832 ∧ encode defaultOpMap (.ble (.reg 2)) = 0x000028B2)

/-- A register-form `j` or taken branch to a misaligned address completes, and the next step faults with that address
(42_branching.md R176; 10_state.md R27; decision D5). -/
def Obligations.MisalignedTargetFaultsAtNextFetch : Prop :=
  ∀ (s : State) (r : RegIdx), (s.reg r).toNat % 4 ≠ 0 →
    (∃ t, exec (.j (.reg r)) s = .next t ∧ t.pc = s.reg r ∧ step t = .fault (.misalignedFetch (s.reg r))) ∧
    ∀ c : Test, testHolds c s.flags = true →
      ∃ t, exec (branchOf c (.reg r)) s = .next t ∧ t.pc = s.reg r ∧ step t = .fault (.misalignedFetch (s.reg r))

/-- `pc` can become misaligned only by a register-form `j` or a taken register-form branch (60_exceptions.md R234; 42_branching.md R176; decision D5). -/
def Obligations.OnlyRegisterJumpsMisalign : Prop :=
  ∀ s t : State, step s = .next t → t.pc.toNat % 4 ≠ 0 →
    ∃ i r, decode s.params.opMap (s.memRead s.pc 4) = .ok i ∧ t.pc = s.reg r ∧
      (i = .j (.reg r) ∨ ∃ c, i = branchOf c (.reg r) ∧ testHolds c s.flags = true)

/-! ## Comparison (44_comparison.md) -/

/-- A comparison (R200) completes in every state, writes no register and not `o`, and neither reads nor writes memory. Its new `e`, `z`, `s` depend on the two operands and CMP_EZ alone:
two states that agree on these get the same three flags, whatever else differs. The operands are read as signed numbers for `cmp` and as unsigned numbers for `cmpu`, whose
immediate is zero-extended; that `s` is the order is R201, R202 and R204 (decision D13; log 12). -/
def Obligations.ComparisonsWriteOnlyEZS : Prop :=
  ∀ (rA : RegIdx) (src : Src) (s : State),
    (∀ rB, src = .reg rB → s.op2 src = s.reg rB ∧ s.op2u src = s.reg rB) ∧
    (∀ i15, src = .imm i15 → (s.op2 src).toInt = i15.toInt ∧ (s.op2u src).toNat = i15.toNat) ∧
    (∀ s' t t' : State, s'.reg rA = s.reg rA → s'.params.cmpEZ = s.params.cmpEZ →
      (s'.op2 src = s.op2 src → exec (.cmp rA src) s = .next t → exec (.cmp rA src) s' = .next t' →
        t'.flags.e = t.flags.e ∧ t'.flags.z = t.flags.z ∧ t'.flags.s = t.flags.s) ∧
      (s'.op2u src = s.op2u src → exec (.cmpu rA src) s = .next t → exec (.cmpu rA src) s' = .next t' →
        t'.flags.e = t.flags.e ∧ t'.flags.z = t.flags.z ∧ t'.flags.s = t.flags.s)) ∧
    (∃ t, exec (.cmp rA src) s = .next t ∧ t.regs = s.regs ∧ t.mem = s.mem ∧ t.params = s.params ∧ t.pc = s.pc + 4 ∧
      t.flags.o = s.flags.o ∧ (t.flags.s = true ↔ (s.reg rA).toInt < (s.op2 src).toInt) ∧
      (∀ m : Memory, exec (.cmp rA src) { s with mem := m } = .next { t with mem := m }) ∧
      ∀ f : Flags, exec (.cmp rA src) (s.setFlags f) = .next (t.setFlags { t.flags with o := f.o })) ∧
    ∃ t, exec (.cmpu rA src) s = .next t ∧ t.regs = s.regs ∧ t.mem = s.mem ∧ t.params = s.params ∧ t.pc = s.pc + 4 ∧
      t.flags.o = s.flags.o ∧ (t.flags.s = true ↔ (s.reg rA).toNat < (s.op2u src).toNat) ∧
      (∀ m : Memory, exec (.cmpu rA src) { s with mem := m } = .next { t with mem := m }) ∧
      ∀ f : Flags, exec (.cmpu rA src) (s.setFlags f) = .next (t.setFlags { t.flags with o := f.o })

/-- `cmp` and `cmpu` (R201, R202, R204): `e`, `z`, `s` under either CMP_EZ (decision D13; log 12). -/
def Obligations.CompareResults : Prop :=
  ∀ (rA : RegIdx) (src : Src) (s : State),
    (∃ t, exec (.cmp rA src) s = .next t ∧
      (s.params.cmpEZ = .swapped →
        t.flags = { e := decide (s.reg rA = s.op2 src), z := decide (s.reg rA = s.op2 src ∧ s.reg rA = 0), o := s.flags.o,
                    s := decide ((s.reg rA).toInt < (s.op2 src).toInt) }) ∧
      (s.params.cmpEZ = .literal →
        t.flags = { z := decide (s.reg rA = s.op2 src), e := decide (s.reg rA = s.op2 src ∧ s.reg rA = 0), o := s.flags.o,
                    s := decide ((s.reg rA).toInt < (s.op2 src).toInt) })) ∧
    ∃ t, exec (.cmpu rA src) s = .next t ∧
      (s.params.cmpEZ = .swapped →
        t.flags = { e := decide (s.reg rA = s.op2u src), z := decide (s.reg rA = s.op2u src ∧ s.reg rA = 0), o := s.flags.o,
                    s := decide ((s.reg rA).toNat < (s.op2u src).toNat) }) ∧
      (s.params.cmpEZ = .literal →
        t.flags = { z := decide (s.reg rA = s.op2u src), e := decide (s.reg rA = s.op2u src ∧ s.reg rA = 0), o := s.flags.o,
                    s := decide ((s.reg rA).toNat < (s.op2u src).toNat) })

/-- What the tests mean after `cmp` (R203, with `CMP_EZ = swapped`, decision D13): the order of the operands read as signed. -/
def Obligations.TestsAfterSignedCompare : Prop :=
  ∀ (rA : RegIdx) (src : Src) (s : State), s.params.cmpEZ = .swapped →
    ∃ t, exec (.cmp rA src) s = .next t ∧
      (testHolds .e t.flags = true ↔ s.reg rA = s.op2 src) ∧ (testHolds .ne t.flags = true ↔ s.reg rA ≠ s.op2 src) ∧
      (testHolds .z t.flags = true ↔ s.reg rA = 0 ∧ s.op2 src = 0) ∧
      (testHolds .nz t.flags = true ↔ ¬(s.reg rA = 0 ∧ s.op2 src = 0)) ∧
      (testHolds .s t.flags = true ↔ (s.reg rA).toInt < (s.op2 src).toInt) ∧
      (testHolds .ns t.flags = true ↔ (s.op2 src).toInt ≤ (s.reg rA).toInt) ∧
      (testHolds .l t.flags = true ↔ (s.reg rA).toInt < (s.op2 src).toInt) ∧
      (testHolds .ge t.flags = true ↔ (s.op2 src).toInt ≤ (s.reg rA).toInt) ∧
      (testHolds .g t.flags = true ↔ (s.op2 src).toInt < (s.reg rA).toInt) ∧
      (testHolds .le t.flags = true ↔ (s.reg rA).toInt ≤ (s.op2 src).toInt) ∧
      testHolds .o t.flags = s.flags.o ∧ testHolds .no t.flags = !s.flags.o

/-- What the tests mean after `cmpu` (R203, with `CMP_EZ = swapped`, decision D13): the order of the operands read as unsigned. -/
def Obligations.TestsAfterUnsignedCompare : Prop :=
  ∀ (rA : RegIdx) (src : Src) (s : State), s.params.cmpEZ = .swapped →
    ∃ t, exec (.cmpu rA src) s = .next t ∧
      (testHolds .e t.flags = true ↔ s.reg rA = s.op2u src) ∧ (testHolds .ne t.flags = true ↔ s.reg rA ≠ s.op2u src) ∧
      (testHolds .z t.flags = true ↔ s.reg rA = 0 ∧ s.op2u src = 0) ∧
      (testHolds .nz t.flags = true ↔ ¬(s.reg rA = 0 ∧ s.op2u src = 0)) ∧
      (testHolds .s t.flags = true ↔ (s.reg rA).toNat < (s.op2u src).toNat) ∧
      (testHolds .ns t.flags = true ↔ (s.op2u src).toNat ≤ (s.reg rA).toNat) ∧
      (testHolds .l t.flags = true ↔ (s.reg rA).toNat < (s.op2u src).toNat) ∧
      (testHolds .ge t.flags = true ↔ (s.op2u src).toNat ≤ (s.reg rA).toNat) ∧
      (testHolds .g t.flags = true ↔ (s.op2u src).toNat < (s.reg rA).toNat) ∧
      (testHolds .le t.flags = true ↔ (s.reg rA).toNat ≤ (s.op2u src).toNat) ∧
      testHolds .o t.flags = s.flags.o ∧ testHolds .no t.flags = !s.flags.o

/-- What the tests mean after a comparison under `CMP_EZ = literal` (R203, decision D13), for `cmp`; `cmpu` alike with the unsigned order. -/
def Obligations.TestsAfterLiteralCompare : Prop :=
  ∀ (rA : RegIdx) (src : Src) (s : State), s.params.cmpEZ = .literal →
    (∃ t, exec (.cmp rA src) s = .next t ∧
      (testHolds .e t.flags = true ↔ s.reg rA = 0 ∧ s.op2 src = 0) ∧ (testHolds .z t.flags = true ↔ s.reg rA = s.op2 src) ∧
      (testHolds .l t.flags = true ↔ (s.reg rA).toInt < (s.op2 src).toInt) ∧
      (testHolds .ge t.flags = true ↔ (s.op2 src).toInt ≤ (s.reg rA).toInt) ∧
      (testHolds .g t.flags = true ↔
        (s.op2 src).toInt < (s.reg rA).toInt ∨ s.reg rA = s.op2 src ∧ s.reg rA ≠ 0) ∧
      (testHolds .le t.flags = true ↔ (s.reg rA).toInt < (s.op2 src).toInt ∨ s.reg rA = 0 ∧ s.op2 src = 0)) ∧
    ∃ t, exec (.cmpu rA src) s = .next t ∧
      (testHolds .e t.flags = true ↔ s.reg rA = 0 ∧ s.op2u src = 0) ∧ (testHolds .z t.flags = true ↔ s.reg rA = s.op2u src) ∧
      (testHolds .l t.flags = true ↔ (s.reg rA).toNat < (s.op2u src).toNat) ∧
      (testHolds .ge t.flags = true ↔ (s.op2u src).toNat ≤ (s.reg rA).toNat) ∧
      (testHolds .g t.flags = true ↔
        (s.op2u src).toNat < (s.reg rA).toNat ∨ s.reg rA = s.op2u src ∧ s.reg rA ≠ 0) ∧
      (testHolds .le t.flags = true ↔ (s.reg rA).toNat < (s.op2u src).toNat ∨ s.reg rA = 0 ∧ s.op2u src = 0)

/-! ## Memory access (45_memory_access.md, 20_memory.md). The checks are decisions D4, D7, D29, the byte order D3, the flags of a load D17: logs 9, 10, 21. -/

/-- `lw` (R211) at an aligned address in MEM_VALID: the four bytes into `rA`, Z and S from them, nothing else. -/
def Obligations.LoadWordResult : Prop :=
  ∀ (rA : RegIdx) (tg : Target) (s : State), (s.ea tg).toNat % 4 = 0 → hasBytes s.params (s.ea tg) 4 = true →
    ∃ t, exec (.lw rA tg) s = .next t ∧
      wroteReg s t rA (s.memRead (s.ea tg) 4) (zsFrom s.flags (s.memRead (s.ea tg) 4))

/-- `ls` and `lb` (R212, R213): the cell zero-extended, so that `s` is always 0 after them (R219). -/
def Obligations.NarrowLoadResults : Prop :=
  ∀ (rA : RegIdx) (tg : Target) (s : State),
    ((s.ea tg).toNat % 2 = 0 → hasBytes s.params (s.ea tg) 2 = true →
      ∃ t v, exec (.ls rA tg) s = .next t ∧ v = s.memRead (s.ea tg) 2 ∧ v.toNat < 2 ^ 16 ∧
        wroteReg s t rA v { s.flags with z := decide (v = 0), s := false }) ∧
    (hasBytes s.params (s.ea tg) 1 = true →
      ∃ t v, exec (.lb rA tg) s = .next t ∧ v = s.memRead (s.ea tg) 1 ∧ v = (s.byteAt (s.ea tg)).setWidth 32 ∧
        wroteReg s t rA v { s.flags with z := decide (v = 0), s := false })

/-- `stw`, `sts`, `stb` (R214, R215, R216) at an aligned address in MEM_VALID: the bytes of the cell and no other byte, register or flag. The address is the
effective address of the state before the step. Memory is in its canonical form, which every step keeps (`StepKeepsInvariant`). -/
def Obligations.StoreResults : Prop :=
  ∀ (rA : RegIdx) (tg : Target) (s : State), s.mem.wf = true →
    ((s.ea tg).toNat % 4 = 0 → hasBytes s.params (s.ea tg) 4 = true →
      ∃ t, exec (.stw tg rA) s = .next t ∧ wroteCell s t (s.ea tg) 4 (s.reg rA)) ∧
    ((s.ea tg).toNat % 2 = 0 → hasBytes s.params (s.ea tg) 2 = true →
      ∃ t, exec (.sts tg rA) s = .next t ∧ wroteCell s t (s.ea tg) 2 (s.reg rA)) ∧
    (hasBytes s.params (s.ea tg) 1 = true →
      ∃ t, exec (.stb tg rA) s = .next t ∧ wroteCell s t (s.ea tg) 1 (s.reg rA))

/-- Where a load or store traps (R220, R235, R236): a misaligned address first, then a byte outside MEM_VALID; the fault is all there is. -/
def Obligations.MemoryAccessFaults : Prop :=
  ∀ (i : Instr) (s : State) (ea : Word) (n : Nat),
    (loadsFrom i s = some (ea, n) →
      (ea.toNat % n ≠ 0 → exec i s = .fault (.misalignedAccess ea n)) ∧
      (ea.toNat % n = 0 → hasBytes s.params ea n = false → exec i s = .fault (.accessFault ea n .load))) ∧
    (storesTo i s = some (ea, n) →
      (ea.toNat % n ≠ 0 → exec i s = .fault (.misalignedAccess ea n)) ∧
      (ea.toNat % n = 0 → hasBytes s.params ea n = false → exec i s = .fault (.accessFault ea n .store)))

/-- MemRead by byte order (20_memory.md R50, decision D3): the bytes at `a`, `a+1`, ... weighted from the low end under `little`, from the high end under `big`. -/
def Obligations.MemReadAssemblesBytes : Prop :=
  ∀ (s : State) (a : Word),
    (s.memRead a 1).toNat = (s.byteAt a).toNat ∧
    (s.params.byteOrder = .little →
      (s.memRead a 2).toNat = (s.byteAt a).toNat + 2 ^ 8 * (s.byteAt (a + 1)).toNat ∧
      (s.memRead a 4).toNat = (s.byteAt a).toNat + 2 ^ 8 * (s.byteAt (a + 1)).toNat + 2 ^ 16 * (s.byteAt (a + 2)).toNat +
        2 ^ 24 * (s.byteAt (a + 3)).toNat) ∧
    (s.params.byteOrder = .big →
      (s.memRead a 2).toNat = (s.byteAt (a + 1)).toNat + 2 ^ 8 * (s.byteAt a).toNat ∧
      (s.memRead a 4).toNat = (s.byteAt (a + 3)).toNat + 2 ^ 8 * (s.byteAt (a + 2)).toNat + 2 ^ 16 * (s.byteAt (a + 1)).toNat +
        2 ^ 24 * (s.byteAt a).toNat)

/-- A load returns the most recent store to its bytes (20_memory.md R55, R60, decision D22): after a store, the load of the same width from the same operand gives
the stored bits, under either byte order. -/
def Obligations.LoadAfterStore : Prop :=
  ∀ (rA rD : RegIdx) (tg : Target) (s : State), s.mem.wf = true →
    ((s.ea tg).toNat % 4 = 0 → hasBytes s.params (s.ea tg) 4 = true →
      ∃ t u, exec (.stw tg rA) s = .next t ∧ exec (.lw rD tg) t = .next u ∧ u.reg rD = s.reg rA) ∧
    ((s.ea tg).toNat % 2 = 0 → hasBytes s.params (s.ea tg) 2 = true →
      ∃ t u, exec (.sts tg rA) s = .next t ∧ exec (.ls rD tg) t = .next u ∧ (u.reg rD).toNat = (s.reg rA).toNat % 2 ^ 16) ∧
    (hasBytes s.params (s.ea tg) 1 = true →
      ∃ t u, exec (.stb tg rA) s = .next t ∧ exec (.lb rD tg) t = .next u ∧ (u.reg rD).toNat = (s.reg rA).toNat % 2 ^ 8)

/-- A stored word read at other widths under `BYTE_ORDER = little` (20_memory.md R51, derived there from R50, decision D3): byte `i` at the i-th address, the upper half
two bytes up. -/
def Obligations.StoredWordReadNarrow : Prop :=
  ∀ (rA : RegIdx) (tg : Target) (s : State), s.mem.wf = true → s.params.byteOrder = .little →
    (s.ea tg).toNat % 4 = 0 → hasBytes s.params (s.ea tg) 4 = true →
    ∃ t, exec (.stw tg rA) s = .next t ∧
      (∀ i, i < 4 → (t.memRead (s.ea tg + BitVec.ofNat 32 i) 1).toNat = (s.reg rA).toNat / 2 ^ (8 * i) % 2 ^ 8) ∧
      (t.memRead (s.ea tg) 2).toNat = (s.reg rA).toNat % 2 ^ 16 ∧
      (t.memRead (s.ea tg + 2) 2).toNat = (s.reg rA).toNat / 2 ^ 16

/-- Fetch sees every earlier store (20_memory.md R63, decision D23; log 18): the word just stored is what a fetch from its address gives. -/
def Obligations.FetchSeesStore : Prop :=
  ∀ (rA : RegIdx) (tg : Target) (s : State), s.mem.wf = true →
    (s.ea tg).toNat % 4 = 0 → hasBytes s.params (s.ea tg) 4 = true →
    ∃ t, exec (.stw tg rA) s = .next t ∧ fetchWord (t.goto (s.ea tg)) = .ok (s.reg rA)

/-- An aligned access never straddles the wrap point (20_memory.md R57, decision D6; log 27): the bytes a load or store of `n` bytes reaches at a multiple of `n` are those
with addresses `ea` to `ea + n - 1` as plain numbers, so MEM_VALID is checked, memory read and memory written at these addresses and no other, and a fetch from an aligned `pc`
reads those at `pc` to `pc + 3`. -/
def Obligations.AlignedAccessNeverWraps : Prop :=
  (∀ (i : Instr) (s : State) (ea : Word) (n : Nat),
    loadsFrom i s = some (ea, n) ∨ storesTo i s = some (ea, n) → ea.toNat % n = 0 →
      ea.toNat + n ≤ 2 ^ 32 ∧
      (∀ x : Word, inBytes ea n x ↔ ea.toNat ≤ x.toNat ∧ x.toNat < ea.toNat + n) ∧
      (hasBytes s.params ea n = true ↔ ∀ x : Word, ea.toNat ≤ x.toNat → x.toNat < ea.toNat + n → hasByte s.params x = true) ∧
      s.mem.readBytes ea n = (List.range n).map (fun k => s.mem.readByte (ea.toNat + k)) ∧
      ∀ t : State, exec i s = .next t →
        ∀ x : Word, t.byteAt x ≠ s.byteAt x → ea.toNat ≤ x.toNat ∧ x.toNat < ea.toNat + n) ∧
  ∀ s : State, s.pc.toNat % 4 = 0 → s.pc.toNat + 4 ≤ 2 ^ 32 ∧
    s.mem.readBytes s.pc 4 = (List.range 4).map (fun k => s.mem.readByte (s.pc.toNat + k))

/-! ## What an instruction touches, over all instructions -/

/-- The register frame (10_state.md R29, column "writes"): every register but the destination is unchanged, and no parameter changes. -/
def Obligations.RegisterFrame : Prop :=
  ∀ (i : Instr) (s t : State), exec i s = .next t →
    (∀ r, destOf i ≠ some r → t.reg r = s.reg r) ∧ t.params = s.params

/-- An instruction depends on no register outside its column "reads" (10_state.md R29, derived there): changing another register beforehand changes
nothing in what the step does but that register's own value, and not that where the step writes it. -/
def Obligations.OnlyListedRegistersAreRead : Prop :=
  ∀ (i : Instr) (s : State) (r : RegIdx) (v : Word), r ∉ readsOf s.flags i →
    exec i (s.setReg r v) = mapNext (fun t => if destOf i = some r then t else t.setReg r v) (exec i s)

/-- The flags table (10_state.md R33): a flag with `-` is unchanged, and one with `w` is written, its new value owing nothing to the flags before the step. That only the twelve
branches read the flags is 10_state.md R34, which the spec derives from its list of instructions. -/
def Obligations.FlagsTable : Prop :=
  (∀ (i : Instr) (s t : State), exec i s = .next t → t.flags = Flags.merge (flagsWritten i) t.flags s.flags) ∧
  ∀ (i : Instr) (s : State) (f : Flags), isBranch i = false →
    exec i (s.setFlags f) = mapNext (fun t => t.setFlags (Flags.merge (flagsWritten i) t.flags f)) (exec i s)

/-- `pc` (10_state.md R25) holds the address the fetch reads, is no general register, is read by the fetch and by relative branches only, and written by the advance,
`j` and `b*` only: every other instruction sets it to `npc` and does the same wherever it stands, and so does a register-form `j` or taken branch, which goes
to its register. -/
def Obligations.OnlyRelativeBranchesReadPc : Prop :=
  (∀ (s : State) (w : Word), fetchWord s = .ok w → w = s.memRead s.pc 4) ∧
  (∀ (s : State) (r : RegIdx) (v a : Word), (s.setReg r v).pc = s.pc ∧ (s.goto a).regs = s.regs) ∧
  (∀ (i : Instr) (s : State), isJump i = false →
    (∀ t, exec i s = .next t → t.pc = s.pc + 4) ∧
    ∀ a : Word, exec i (s.goto a) = mapNext (fun t => t.goto (a + 4)) (exec i s)) ∧
  ∀ (s : State) (r : RegIdx) (a : Word),
    exec (.j (.reg r)) (s.goto a) = exec (.j (.reg r)) s ∧
    ∀ c : Test, exec (branchOf c (.reg r)) (s.goto a) =
      if testHolds c s.flags then exec (branchOf c (.reg r)) s else .next (s.goto (a + 4))

/-- The memory frame (10_state.md R37; 45_memory_access.md R214 to R216): every byte outside those the instruction stores to, at the effective address of the state before the
step, reads as before; an instruction that stores nothing leaves every byte. -/
def Obligations.MemoryFrame : Prop :=
  ∀ (i : Instr) (s t : State), exec i s = .next t →
    ∀ x : Word, (∀ a n, storesTo i s = some (a, n) → ¬ inBytes a n x) → t.byteAt x = s.byteAt x

/-- Memory is reached by the loads and stores only, the fetch apart (10_state.md R37: "dedicated instructions are reserved for memory access"): any other instruction does the
same whatever memory holds, and leaves it. -/
def Obligations.OnlyLoadsAndStoresReachMemory : Prop :=
  ∀ (i : Instr) (s : State) (m : Memory), loadsFrom i s = none → storesTo i s = none →
    exec i { s with mem := m } = mapNext (fun t => { t with mem := m }) (exec i s)

/-! ## Runs (60_exceptions.md R231; 70_reset_and_hazards.md R275) -/

/-- A fault is precise and terminal (R231, decision D18): a run that is faulted after `k` steps got there from a state whose step is that fault, and stays so, with
that state, for every further step. -/
def Obligations.FaultedRunStays : Prop :=
  ∀ (s u : State) (f : Fault) (k : Nat), runSteps k (.running s) = .faulted u f →
    step u = .fault f ∧ (∃ j, j < k ∧ runSteps j (.running s) = .running u) ∧
    ∀ n, runSteps (k + n) (.running s) = .faulted u f

/-- `runUntil` finds the end of a run (R275, decision D24): it answers a state at END_PC exactly when the run is complete in that state after at most `fuel` steps. -/
def Obligations.RunUntilFindsEnd : Prop :=
  ∀ (endPc : Word) (fuel : Nat) (s t : State),
    runUntil endPc fuel s = .running t ∧ t.pc = endPc ↔ ∃ k, k ≤ fuel ∧ completesAt endPc k s t

/-- A run is complete at one state only (R275: "the first state"). -/
def Obligations.CompletionIsUnique : Prop :=
  ∀ (endPc : Word) (s t t' : State) (k k' : Nat), completesAt endPc k s t → completesAt endPc k' s t' → k = k' ∧ t = t'
end

