-- ==== Sys2Proof/Laws/Decode.lean ====
section
/-! SUPPORT. The fields of a packed word, the opcode map read backwards, and the encoder's words. -/

namespace Sys2Proof

/-! ## The OP field of a packed word -/

/-- A bit of a placed field. -/
theorem getElem_placed {n : Nat} (v : BitVec n) (lo i : Nat) (hi : i < 32) :
    (placed v lo)[i] = (decide (lo ≤ i) && v.getLsbD (i - lo)) := by
  by_cases hl : lo ≤ i
  · simp [placed, hl, Nat.not_lt.mpr hl]
  · simp [placed, hl, Nat.not_le.mp hl]

@[simp] theorem opField_packR (f : RFields) : opField (packR f) = f.op := by
  apply BitVec.eq_of_getLsbD_eq
  intro i hi
  interval_cases i <;> simp [opField, packR, getElem_placed]
@[simp] theorem opField_packC (f : CFields) : opField (packC f) = f.op := by
  apply BitVec.eq_of_getLsbD_eq
  intro i hi
  interval_cases i <;> simp [opField, packC, getElem_placed]
@[simp] theorem opField_packI (f : IFields) : opField (packI f) = f.op := by
  apply BitVec.eq_of_getLsbD_eq
  intro i hi
  interval_cases i <;> simp [opField, packI, getElem_placed]

theorem opField_encodeSrc (op : BitVec 6) (rA : RegIdx) (src : Src) : opField (encodeSrc op rA src) = op := by
  cases src <;> simp [encodeSrc]
theorem opField_encodeUnary (op : BitVec 6) (rA : RegIdx) : opField (encodeUnary op rA) = op := by
  simp [encodeUnary]
theorem opField_encodeTarget (op : BitVec 6) (rA : RegIdx) (t : Target) : opField (encodeTarget op rA t) = op := by
  cases t <;> simp [encodeTarget]
theorem opField_encodeJump (op : BitVec 6) (d : JumpTo) : opField (encodeJump op d) = op := by
  cases d <;> simp [encodeJump]
theorem opField_encodeBranch (op : BitVec 6) (t : Test) (d : BranchTo) : opField (encodeBranch op t d) = op := by
  cases d <;> simp [encodeBranch]

/-! ## The opcode map -/

theorem mem_allOperations (o : Operation) : o ∈ allOperations := by
  cases o <;> simp [allOperations]

theorem OpMap.codes_eq (m : OpMap) : m.codes = allOperations.map m.code := rfl

/-- A legal OPMAP is injective. -/
theorem OpMap.code_injective {m : OpMap} (h : m.wf = true) {a b : Operation} (hab : m.code a = m.code b) : a = b := by
  have hn : (allOperations.map m.code).Nodup := by rw [← OpMap.codes_eq]; exact of_decide_eq_true h
  exact List.inj_on_of_nodup_map hn (mem_allOperations a) (mem_allOperations b) hab

/-- OPMAP read backwards finds an operation with that `OP` value. -/
theorem OpMap.code_of_operation {m : OpMap} {op : BitVec 6} {o : Operation} (h : m.operation op = some o) : m.code o = op := by
  simpa using List.find?_some h

/-- The default OPMAP is injective. -/
theorem defaultOpMap_wf : defaultOpMap.wf = true := by decide

/-- The default REGNUM is a bijection. -/
theorem defaultRegNum_wf : defaultRegNum.wf = true := by decide

end Sys2Proof
end

