-- ==== Sys2Proof/Laws/State.lean ====
section
/-! SUPPORT. What each named update of the state leaves in each field: one lemma per field per update. -/

namespace Sys2Proof.Machine

/-! ## setReg -/
theorem State.setReg_regs (s : State) (r : RegIdx) (v : Word) : (s.setReg r v).regs = s.regs.set r.toNat v r.isLt := rfl
@[simp] theorem State.setReg_pc (s : State) (r : RegIdx) (v : Word) : (s.setReg r v).pc = s.pc := rfl
@[simp] theorem State.setReg_flags (s : State) (r : RegIdx) (v : Word) : (s.setReg r v).flags = s.flags := rfl
@[simp] theorem State.setReg_mem (s : State) (r : RegIdx) (v : Word) : (s.setReg r v).mem = s.mem := rfl
@[simp] theorem State.setReg_params (s : State) (r : RegIdx) (v : Word) : (s.setReg r v).params = s.params := rfl

/-! ## goto -/
@[simp] theorem State.goto_regs (s : State) (a : Word) : (s.goto a).regs = s.regs := rfl
@[simp] theorem State.goto_pc (s : State) (a : Word) : (s.goto a).pc = a := rfl
@[simp] theorem State.goto_flags (s : State) (a : Word) : (s.goto a).flags = s.flags := rfl
@[simp] theorem State.goto_mem (s : State) (a : Word) : (s.goto a).mem = s.mem := rfl
@[simp] theorem State.goto_params (s : State) (a : Word) : (s.goto a).params = s.params := rfl
@[simp] theorem State.goto_reg (s : State) (a : Word) (r : RegIdx) : (s.goto a).reg r = s.reg r := rfl

/-! ## advance -/
@[simp] theorem State.advance_regs (s : State) : s.advance.regs = s.regs := rfl
@[simp] theorem State.advance_pc (s : State) : s.advance.pc = s.pc + 4 := rfl
@[simp] theorem State.advance_flags (s : State) : s.advance.flags = s.flags := rfl
@[simp] theorem State.advance_mem (s : State) : s.advance.mem = s.mem := rfl
@[simp] theorem State.advance_params (s : State) : s.advance.params = s.params := rfl
@[simp] theorem State.advance_reg (s : State) (r : RegIdx) : s.advance.reg r = s.reg r := rfl

/-! ## setFlags -/
@[simp] theorem State.setFlags_regs (s : State) (f : Flags) : (s.setFlags f).regs = s.regs := rfl
@[simp] theorem State.setFlags_pc (s : State) (f : Flags) : (s.setFlags f).pc = s.pc := rfl
@[simp] theorem State.setFlags_flags (s : State) (f : Flags) : (s.setFlags f).flags = f := rfl
@[simp] theorem State.setFlags_mem (s : State) (f : Flags) : (s.setFlags f).mem = s.mem := rfl
@[simp] theorem State.setFlags_params (s : State) (f : Flags) : (s.setFlags f).params = s.params := rfl
@[simp] theorem State.setFlags_reg (s : State) (f : Flags) (r : RegIdx) : (s.setFlags f).reg r = s.reg r := rfl

/-! ## retire -/
@[simp] theorem State.retire_pc (s : State) (r : RegIdx) (v : Word) (f : Flags) : (s.retire r v f).pc = s.pc + 4 := rfl
@[simp] theorem State.retire_flags (s : State) (r : RegIdx) (v : Word) (f : Flags) : (s.retire r v f).flags = f := rfl
@[simp] theorem State.retire_mem (s : State) (r : RegIdx) (v : Word) (f : Flags) : (s.retire r v f).mem = s.mem := rfl
@[simp] theorem State.retire_params (s : State) (r : RegIdx) (v : Word) (f : Flags) :
    (s.retire r v f).params = s.params := rfl
@[simp] theorem State.retire_reg (s : State) (rA : RegIdx) (v : Word) (f : Flags) (r : RegIdx) :
    (s.retire rA v f).reg r = (s.setReg rA v).reg r := rfl

/-! ## memWrite -/
@[simp] theorem State.memWrite_regs (s : State) (a : Word) (n : Nat) (v : Word) : (s.memWrite a n v).regs = s.regs := rfl
@[simp] theorem State.memWrite_pc (s : State) (a : Word) (n : Nat) (v : Word) : (s.memWrite a n v).pc = s.pc := rfl
@[simp] theorem State.memWrite_flags (s : State) (a : Word) (n : Nat) (v : Word) : (s.memWrite a n v).flags = s.flags := rfl
@[simp] theorem State.memWrite_params (s : State) (a : Word) (n : Nat) (v : Word) :
    (s.memWrite a n v).params = s.params := rfl
@[simp] theorem State.memWrite_reg (s : State) (a : Word) (n : Nat) (v : Word) (r : RegIdx) :
    (s.memWrite a n v).reg r = s.reg r := rfl
theorem State.memWrite_mem (s : State) (a : Word) (n : Nat) (v : Word) :
    (s.memWrite a n v).mem = s.mem.writeBytes a (cellBytes s.params.byteOrder n v) := rfl

/-! ## Reading a register after writing one -/

@[simp] theorem State.reg_setReg_same (s : State) (r : RegIdx) (v : Word) : (s.setReg r v).reg r = v := by
  simp [State.reg, State.setReg]

theorem State.reg_setReg_other (s : State) {r q : RegIdx} (v : Word) (h : q ≠ r) : (s.setReg r v).reg q = s.reg q := by
  have hne : r.toNat ≠ q.toNat := fun e => h (BitVec.eq_of_toNat_eq e.symm)
  simp [State.reg, State.setReg, Vector.getElem_set_ne _ _ hne]

theorem State.reg_setReg (s : State) (r q : RegIdx) (v : Word) :
    (s.setReg r v).reg q = if q = r then v else s.reg q := by
  by_cases h : q = r
  · subst h; simp
  · simp [h, State.reg_setReg_other s v h]

/-- Two register files that read alike at every number are equal. -/
theorem State.regs_ext {s t : State} (h : ∀ r, t.reg r = s.reg r) : t.regs = s.regs := by
  apply Vector.ext
  intro i hi
  have := h (BitVec.ofNat 5 i)
  simpa [State.reg, BitVec.toNat_ofNat, Nat.mod_eq_of_lt hi] using this

end Sys2Proof.Machine
end

