-- ==== Sys2Proof/Laws/Memory.lean ====
section
/-! SUPPORT. Memory: read after write, the canonical form is kept by every operation, and the bytes of a cell. -/

namespace Sys2Proof.Machine

/-! ## The canonical form -/

theorem Memory.wfFrom_mono {lo lo' : Nat} (h : lo' ≤ lo) : ∀ {m : Memory}, Memory.wfFrom lo m = true → Memory.wfFrom lo' m = true
  | [], _ => rfl
  | (a, b) :: rest, hm => by
    simp only [Memory.wfFrom, Bool.and_eq_true, decide_eq_true_eq] at hm ⊢
    exact ⟨⟨⟨h.trans hm.1.1.1, hm.1.1.2⟩, hm.1.2⟩, hm.2⟩

/-- Below the lowest address a canonical memory lists, nothing is written. -/
theorem Memory.readByte_below {lo a : Nat} (ha : a < lo) :
    ∀ {m : Memory}, Memory.wfFrom lo m = true → Memory.readByte m a = unwrittenByte
  | [], _ => rfl
  | (k, b) :: rest, hm => by
    simp only [Memory.wfFrom, Bool.and_eq_true, decide_eq_true_eq] at hm
    have hk : k ≠ a := by omega
    simp only [Memory.readByte, if_neg hk]
    exact Memory.readByte_below (by omega) hm.2

theorem Memory.wfFrom_writeByte {a : Nat} (b : Byte) (ha : a < 2 ^ 32) :
    ∀ {lo : Nat} {m : Memory}, lo ≤ a → Memory.wfFrom lo m = true → Memory.wfFrom lo (Memory.writeByte m a b) = true
  | lo, [], hlo, _ => by
    by_cases hb : b = unwrittenByte
    · simp [Memory.writeByte, hb, Memory.wfFrom]
    · simp [-Nat.reducePow, Memory.writeByte, hb, Memory.wfFrom, hlo, ha]
  | lo, (k, c) :: rest, hlo, hm => by
    have hm' := hm
    simp only [Memory.wfFrom, Bool.and_eq_true, decide_eq_true_eq, bne_iff_ne, ne_eq] at hm
    obtain ⟨⟨⟨h1, h2⟩, h3⟩, h4⟩ := hm
    by_cases hak : a < k
    · by_cases hb : b = unwrittenByte
      · simpa [Memory.writeByte, hak, hb] using hm'
      · simp [-Nat.reducePow, Memory.writeByte, hak, hb, Memory.wfFrom, hlo, ha, h2, h3, h4, Nat.succ_le_of_lt hak]
    · by_cases hek : a = k
      · subst hek
        by_cases hb : b = unwrittenByte
        · simpa [Memory.writeByte, hb] using Memory.wfFrom_mono (by omega : lo ≤ a + 1) h4
        · simp [-Nat.reducePow, Memory.writeByte, hb, Memory.wfFrom, hlo, ha, h4]
      · have ih := Memory.wfFrom_writeByte b ha (by omega : k + 1 ≤ a) h4
        simp [-Nat.reducePow, Memory.writeByte, hak, hek, Memory.wfFrom, h1, h2, h3, ih]

/-- Writing a byte keeps the canonical form. -/
theorem Memory.wf_writeByte {m : Memory} {a : Nat} (b : Byte) (ha : a < 2 ^ 32) (hm : m.wf = true) :
    (m.writeByte a b).wf = true :=
  Memory.wfFrom_writeByte b ha (Nat.zero_le a) hm

/-- Writing bytes keeps the canonical form. -/
theorem Memory.wf_writeBytes : ∀ {bs : List Byte} {addr : Word} {m : Memory}, m.wf = true → (m.writeBytes addr bs).wf = true
  | [], _, _, hm => hm
  | b :: bs, addr, m, hm =>
    Memory.wf_writeBytes (bs := bs) (addr := addr + 1) (m := m.writeByte addr.toNat b) (Memory.wf_writeByte b addr.isLt hm)

/-- A launch image is in the canonical form. -/
theorem Memory.wf_ofImage (pieces : List (Word × List Byte)) : (Memory.ofImage pieces).wf = true := by
  suffices h : ∀ m : Memory, m.wf = true → (pieces.foldl (fun m p => m.writeBytes p.1 p.2) m).wf = true from h [] rfl
  induction pieces with
  | nil => exact fun _ hm => hm
  | cons p ps ih => exact fun m hm => ih _ (Memory.wf_writeBytes hm)

/-- The MemWrite of the machine keeps the canonical form. -/
theorem State.memWrite_wf {s : State} (a : Word) (n : Nat) (v : Word) (hm : s.mem.wf = true) : (s.memWrite a n v).mem.wf = true :=
  Memory.wf_writeBytes hm

/-- The memory of the reset state is in the canonical form. -/
theorem State.reset_mem_wf : State.reset.mem.wf = true := rfl

/-! ## Read after write -/

theorem Memory.readByte_writeByte_other {a x : Nat} (b : Byte) (hx : x ≠ a) :
    ∀ (m : Memory), Memory.readByte (Memory.writeByte m a b) x = Memory.readByte m x
  | [] => by
    by_cases hb : b = unwrittenByte
    · simp [Memory.writeByte, hb]
    · simp [Memory.writeByte, hb, Memory.readByte, Ne.symm hx]
  | (k, c) :: rest => by
    have ih := Memory.readByte_writeByte_other b hx rest
    by_cases hak : a < k
    · by_cases hb : b = unwrittenByte <;> simp [Memory.writeByte, hak, hb, Memory.readByte, Ne.symm hx]
    · by_cases hek : a = k
      · subst hek
        by_cases hb : b = unwrittenByte <;> simp [Memory.writeByte, hb, Memory.readByte, Ne.symm hx]
      · simp only [Memory.writeByte, if_neg hak, if_neg hek, Memory.readByte, ih]

theorem Memory.readByte_writeByte_same {a : Nat} (b : Byte) :
    ∀ {lo : Nat} {m : Memory}, Memory.wfFrom lo m = true → Memory.readByte (Memory.writeByte m a b) a = b
  | _, [], _ => by
    by_cases hb : b = unwrittenByte <;> simp [Memory.writeByte, hb, Memory.readByte]
  | _, (k, c) :: rest, hm => by
    simp only [Memory.wfFrom, Bool.and_eq_true, decide_eq_true_eq] at hm
    by_cases hak : a < k
    · have hne : k ≠ a := by omega
      by_cases hb : b = unwrittenByte
      · simp [Memory.writeByte, hak, hb, Memory.readByte, hne, Memory.readByte_below (by omega : a < k + 1) hm.2]
      · simp [Memory.writeByte, hak, hb, Memory.readByte]
    · by_cases hek : a = k
      · subst hek
        by_cases hb : b = unwrittenByte
        · simp [Memory.writeByte, hb, Memory.readByte_below (Nat.lt_succ_self a) hm.2]
        · simp [Memory.writeByte, hb, Memory.readByte]
      · have ih := Memory.readByte_writeByte_same (a := a) b hm.2
        simp [Memory.writeByte, hak, hek, Memory.readByte, Ne.symm hek, ih]

/-- A byte outside the bytes written reads as before. -/
theorem Memory.readByte_writeBytes_outside {x : Word} :
    ∀ {bs : List Byte} {addr : Word} {m : Memory}, ¬ inBytes addr bs.length x →
      Memory.readByte (m.writeBytes addr bs) x.toNat = Memory.readByte m x.toNat
  | [], _, _, _ => rfl
  | b :: bs, addr, m, h => by
    have h0 : x.toNat ≠ addr.toNat := by
      intro e
      exact h (by simp [inBytes, BitVec.eq_of_toNat_eq e])
    have h1 : ¬ inBytes (addr + 1) bs.length x := by
      intro e
      apply h
      simp only [inBytes, List.length_cons] at e ⊢
      bv_omega
    show Memory.readByte (Memory.writeBytes (m.writeByte addr.toNat b) (addr + 1) bs) x.toNat = _
    rw [Memory.readByte_writeBytes_outside h1, Memory.readByte_writeByte_other b h0]

theorem Memory.readBytes_congr {m m' : Memory} :
    ∀ {n : Nat} {addr : Word}, (∀ x, inBytes addr n x → Memory.readByte m x.toNat = Memory.readByte m' x.toNat) → n ≤ 2 ^ 32 →
      m.readBytes addr n = m'.readBytes addr n
  | 0, _, _, _ => rfl
  | n + 1, addr, h, hn => by
    have h0 := h addr (by simp [inBytes])
    have ih : m.readBytes (addr + 1) n = m'.readBytes (addr + 1) n := by
      apply Memory.readBytes_congr _ (by omega)
      intro x hx
      apply h
      simp only [inBytes] at hx ⊢
      bv_omega
    simp only [Memory.readBytes, h0, ih]

@[simp] theorem Memory.readBytes_length (m : Memory) : ∀ (n : Nat) (addr : Word), (m.readBytes addr n).length = n
  | 0, _ => rfl
  | n + 1, addr => by simp [Memory.readBytes, Memory.readBytes_length m n]

/-- The bytes just written read back. -/
theorem Memory.readBytes_writeBytes_same :
    ∀ {bs : List Byte} {addr : Word} {m : Memory}, m.wf = true → bs.length ≤ 2 ^ 32 →
      (m.writeBytes addr bs).readBytes addr bs.length = bs
  | [], _, _, _, _ => rfl
  | b :: bs, addr, m, hm, hn => by
    simp only [List.length_cons] at hn
    have hw := Memory.wf_writeByte b addr.isLt hm
    have ih := Memory.readBytes_writeBytes_same (bs := bs) (addr := addr + 1) hw (by omega)
    have hout : ¬ inBytes (addr + 1) bs.length addr := by
      simp only [inBytes]
      bv_omega
    simp only [Memory.writeBytes, List.length_cons, Memory.readBytes, ih, Memory.readByte_writeBytes_outside hout]
    rw [Memory.readByte_writeByte_same b hm]

/-! ## The bytes of a cell -/

@[simp] theorem leBytes_length : ∀ (n v : Nat), (leBytes n v).length = n
  | 0, _ => rfl
  | n + 1, v => by simp [leBytes, leBytes_length n]

theorem leValue_leBytes : ∀ (n v : Nat), leValue (leBytes n v) = v % 2 ^ (8 * n)
  | 0, v => by simp [leBytes, leValue, Nat.mod_one]
  | n + 1, v => by
    have h : (2 : Nat) ^ (8 * (n + 1)) = 2 ^ 8 * 2 ^ (8 * n) := by rw [← pow_add]; congr 1; ring
    rw [h, Nat.mod_mul, leBytes, leValue, leValue_leBytes n, BitVec.toNat_ofNat]

@[simp] theorem cellBytes_length (order : ByteOrder) (n : Nat) (v : Word) : (cellBytes order n v).length = n := by
  cases order <;> simp [cellBytes]

/-- A cell's bytes give back the low `8 * n` bits of the value, in either byte order. -/
theorem cellValue_cellBytes (order : ByteOrder) (n : Nat) (v : Word) :
    cellValue order (cellBytes order n v) = BitVec.ofNat 32 (v.toNat % 2 ^ (8 * n)) := by
  cases order <;> simp [cellValue, cellBytes, leValue_leBytes]

/-- MemRead after MemWrite of the same cell: the low `8 * n` bits of the value. -/
theorem State.memRead_memWrite_same {s : State} {a : Word} {n : Nat} {v : Word} (hm : s.mem.wf = true) (hn : n ≤ 2 ^ 32) :
    (s.memWrite a n v).memRead a n = BitVec.ofNat 32 (v.toNat % 2 ^ (8 * n)) := by
  have h := Memory.readBytes_writeBytes_same (bs := cellBytes s.params.byteOrder n v) (addr := a) hm (by simpa using hn)
  rw [cellBytes_length] at h
  rw [State.memRead, State.memWrite_mem, State.memWrite_params, h, cellValue_cellBytes]

end Sys2Proof.Machine
end

