-- ==== Sys2Proof/Laws/Ops.lean ====
section
/-! SUPPORT. One lemma per shared operation: everything it can answer. The proofs cite these instead of unfolding the operation. -/

namespace Sys2Proof.Machine

variable {s t : State}

theorem arithZOS_next_iff {op : OverflowOp} {rA : RegIdx} {a b r : Word} :
    arithZOS op rA a b r s = .next t ↔
      t = s.retire rA r (s.flags.withZOS r (overflow s.params.overflowRule op a b)) := by
  simp [arithZOS, eq_comm]

theorem bitwiseZS_next_iff {rA : RegIdx} {r : Word} : bitwiseZS rA r s = .next t ↔ t = s.retire rA r (s.flags.withZS r) := by
  simp [bitwiseZS, eq_comm]

theorem compareEZS_next_iff {a b : Word} {lt : Bool} :
    compareEZS a b lt s = .next t ↔ t = (s.setFlags (s.flags.compared s.params.cmpEZ a b lt)).advance := by
  simp [compareEZS, eq_comm]

theorem branchIf_next_iff {c : Test} {dst : BranchTo} :
    branchIf c dst s = .next t ↔
      testHolds c s.flags = true ∧ t = s.goto (s.branchTarget dst) ∨ testHolds c s.flags = false ∧ t = s.advance := by
  cases h : testHolds c s.flags <;> simp [branchIf, h, eq_comm]

theorem dataFault_none_iff {p : Params} {kind : AccessKind} {ea : Word} {n : Nat} :
    dataFault p kind ea n = none ↔ ea.toNat % n = 0 ∧ hasBytes p ea n = true := by
  by_cases ha : ea.toNat % n = 0 <;> cases hv : hasBytes p ea n <;> simp [dataFault, ha, hv]

theorem dataFault_some_iff {p : Params} {kind : AccessKind} {ea : Word} {n : Nat} {f : Fault} :
    dataFault p kind ea n = some f ↔
      ea.toNat % n ≠ 0 ∧ f = .misalignedAccess ea n ∨
        ea.toNat % n = 0 ∧ hasBytes p ea n = false ∧ f = .accessFault ea n kind := by
  by_cases ha : ea.toNat % n = 0 <;> cases hv : hasBytes p ea n <;> simp [dataFault, ha, hv] <;> exact eq_comm

theorem loadCell_next_iff {n : Nat} {rA : RegIdx} {target : Target} :
    loadCell n rA target s = .next t ↔
      ((s.ea target).toNat % n = 0 ∧ hasBytes s.params (s.ea target) n = true) ∧
        t = s.retire rA (s.memRead (s.ea target) n) (s.flags.withZS (s.memRead (s.ea target) n)) := by
  rw [← dataFault_none_iff (kind := .load)]
  cases h : dataFault s.params .load (s.ea target) n <;> simp [loadCell, raise, h]
  exact eq_comm

theorem loadCell_fault_iff {n : Nat} {rA : RegIdx} {target : Target} {f : Fault} :
    loadCell n rA target s = .fault f ↔ dataFault s.params .load (s.ea target) n = some f := by
  cases h : dataFault s.params .load (s.ea target) n <;> simp [loadCell, raise, h]

theorem loadCell_not_refused {n : Nat} {rA : RegIdx} {target : Target} {r : Refusal} : loadCell n rA target s ≠ .refused r := by
  unfold loadCell raise
  split <;> simp

theorem storeCell_next_iff {n : Nat} {rA : RegIdx} {target : Target} :
    storeCell n target rA s = .next t ↔
      ((s.ea target).toNat % n = 0 ∧ hasBytes s.params (s.ea target) n = true) ∧
        t = (s.memWrite (s.ea target) n (s.reg rA)).advance := by
  rw [← dataFault_none_iff (kind := .store)]
  cases h : dataFault s.params .store (s.ea target) n <;> simp [storeCell, raise, h]
  exact eq_comm

theorem storeCell_fault_iff {n : Nat} {rA : RegIdx} {target : Target} {f : Fault} :
    storeCell n target rA s = .fault f ↔ dataFault s.params .store (s.ea target) n = some f := by
  cases h : dataFault s.params .store (s.ea target) n <;> simp [storeCell, raise, h]

theorem storeCell_not_refused {n : Nat} {rA : RegIdx} {target : Target} {r : Refusal} :
    storeCell n target rA s ≠ .refused r := by
  unfold storeCell raise
  split <;> simp

/-! ## Fetch and step -/

theorem fetchWord_ok_iff {w : Word} :
    fetchWord s = .ok w ↔ s.pc.toNat % 4 = 0 ∧ hasBytes s.params s.pc 4 = true ∧ w = s.memRead s.pc 4 := by
  by_cases ha : s.pc.toNat % 4 = 0 <;> cases hv : hasBytes s.params s.pc 4 <;> simp [fetchWord, ha, hv]
  exact eq_comm

theorem fetchWord_error_iff {f : Fault} :
    fetchWord s = .error f ↔
      s.pc.toNat % 4 ≠ 0 ∧ f = .misalignedFetch s.pc ∨
        s.pc.toNat % 4 = 0 ∧ hasBytes s.params s.pc 4 = false ∧ f = .accessFault s.pc 4 .fetch := by
  by_cases ha : s.pc.toNat % 4 = 0 <;> cases hv : hasBytes s.params s.pc 4 <;> simp [fetchWord, ha, hv] <;> exact eq_comm

theorem fetchInstr_ok_iff {i : Instr} :
    fetchInstr s = .ok i ↔ ∃ w, fetchWord s = .ok w ∧ decode s.params.opMap w = .ok i := by
  cases hw : fetchWord s with
  | error g => simp [fetchInstr, hw]
  | ok w => cases hd : decode s.params.opMap w <;> simp [fetchInstr, hw, hd]

theorem fetchInstr_error_iff {f : Fault} :
    fetchInstr s = .error f ↔
      fetchWord s = .error f ∨
        ∃ w d, fetchWord s = .ok w ∧ decode s.params.opMap w = .error d ∧ f = .illegalInstruction w := by
  cases hw : fetchWord s with
  | error g => simp [fetchInstr, hw]
  | ok w =>
    cases hd : decode s.params.opMap w with
    | error d => simp [fetchInstr, hw, hd]; exact eq_comm
    | ok i => simp [fetchInstr, hw, hd]

theorem step_next_iff : step s = .next t ↔ ∃ i, fetchInstr s = .ok i ∧ exec i s = .next t := by
  unfold step raise
  split <;> simp_all

theorem step_fault_iff {f : Fault} :
    step s = .fault f ↔ fetchInstr s = .error f ∨ ∃ i, fetchInstr s = .ok i ∧ exec i s = .fault f := by
  unfold step raise
  split <;> simp_all

/-- Placing a word leaves registers and flags, makes `pc` fetchable and puts the word's bytes there. -/
theorem placeWord_regs (s : State) (w : Word) : (placeWord s w).regs = s.regs := rfl
theorem placeWord_flags (s : State) (w : Word) : (placeWord s w).flags = s.flags := rfl
theorem placeWord_pc (s : State) (w : Word) : (placeWord s w).pc = BitVec.ofNat 32 (s.pc.toNat / 4 * 4) := rfl

/-- Placing a word keeps the canonical form of memory. -/
theorem placeWord_mem_wf {w : Word} (h : s.mem.wf = true) : (placeWord s w).mem.wf = true := Memory.wf_writeBytes h

end Sys2Proof.Machine
end

