-- ==== Sys2Proof/Laws/PerInstr.lean ====
section
/-! SUPPORT. What holds of every instruction as syntax, one lemma per constructor. `OpcodeInPlace`: the `OP` field of an instruction's word
is the `OP` value of its operation (30_encoding.md R80, R95). -/

namespace Sys2Proof.Laws

/-- Whatever the OPMAP, bits 5:0 of the word are the operation's `OP` value. -/
def OpcodeInPlace.Statement (i : Instr) : Prop := ∀ m : OpMap, opField (encode m i) = m.code (operationOf i)

theorem OpcodeInPlace.add (rA : RegIdx) (src : Src) : OpcodeInPlace.Statement (.add rA src) := fun _ => opField_encodeSrc _ _ _
theorem OpcodeInPlace.dec (rA : RegIdx) : OpcodeInPlace.Statement (.dec rA) := fun _ => opField_encodeUnary _ _
theorem OpcodeInPlace.inc (rA : RegIdx) : OpcodeInPlace.Statement (.inc rA) := fun _ => opField_encodeUnary _ _
theorem OpcodeInPlace.mul (rA : RegIdx) (src : Src) : OpcodeInPlace.Statement (.mul rA src) := fun _ => opField_encodeSrc _ _ _
theorem OpcodeInPlace.sub (rA : RegIdx) (src : Src) : OpcodeInPlace.Statement (.sub rA src) := fun _ => opField_encodeSrc _ _ _
theorem OpcodeInPlace.and (rA : RegIdx) (src : Src) : OpcodeInPlace.Statement (.and rA src) := fun _ => opField_encodeSrc _ _ _
theorem OpcodeInPlace.not (rA : RegIdx) : OpcodeInPlace.Statement (.not rA) := fun _ => opField_encodeUnary _ _
theorem OpcodeInPlace.or (rA : RegIdx) (src : Src) : OpcodeInPlace.Statement (.or rA src) := fun _ => opField_encodeSrc _ _ _
theorem OpcodeInPlace.shiftl (rA : RegIdx) (src : Src) : OpcodeInPlace.Statement (.shiftl rA src) := fun _ => opField_encodeSrc _ _ _
theorem OpcodeInPlace.shiftr (rA : RegIdx) (src : Src) : OpcodeInPlace.Statement (.shiftr rA src) := fun _ => opField_encodeSrc _ _ _
theorem OpcodeInPlace.shiftrs (rA : RegIdx) (src : Src) : OpcodeInPlace.Statement (.shiftrs rA src) := fun _ => opField_encodeSrc _ _ _
theorem OpcodeInPlace.xor (rA : RegIdx) (src : Src) : OpcodeInPlace.Statement (.xor rA src) := fun _ => opField_encodeSrc _ _ _
theorem OpcodeInPlace.j (dst : JumpTo) : OpcodeInPlace.Statement (.j dst) := fun _ => opField_encodeJump _ _
theorem OpcodeInPlace.be (dst : BranchTo) : OpcodeInPlace.Statement (.be dst) := fun _ => opField_encodeBranch _ _ _
theorem OpcodeInPlace.bne (dst : BranchTo) : OpcodeInPlace.Statement (.bne dst) := fun _ => opField_encodeBranch _ _ _
theorem OpcodeInPlace.bz (dst : BranchTo) : OpcodeInPlace.Statement (.bz dst) := fun _ => opField_encodeBranch _ _ _
theorem OpcodeInPlace.bnz (dst : BranchTo) : OpcodeInPlace.Statement (.bnz dst) := fun _ => opField_encodeBranch _ _ _
theorem OpcodeInPlace.bo (dst : BranchTo) : OpcodeInPlace.Statement (.bo dst) := fun _ => opField_encodeBranch _ _ _
theorem OpcodeInPlace.bno (dst : BranchTo) : OpcodeInPlace.Statement (.bno dst) := fun _ => opField_encodeBranch _ _ _
theorem OpcodeInPlace.bs (dst : BranchTo) : OpcodeInPlace.Statement (.bs dst) := fun _ => opField_encodeBranch _ _ _
theorem OpcodeInPlace.bns (dst : BranchTo) : OpcodeInPlace.Statement (.bns dst) := fun _ => opField_encodeBranch _ _ _
theorem OpcodeInPlace.bl (dst : BranchTo) : OpcodeInPlace.Statement (.bl dst) := fun _ => opField_encodeBranch _ _ _
theorem OpcodeInPlace.bge (dst : BranchTo) : OpcodeInPlace.Statement (.bge dst) := fun _ => opField_encodeBranch _ _ _
theorem OpcodeInPlace.bg (dst : BranchTo) : OpcodeInPlace.Statement (.bg dst) := fun _ => opField_encodeBranch _ _ _
theorem OpcodeInPlace.ble (dst : BranchTo) : OpcodeInPlace.Statement (.ble dst) := fun _ => opField_encodeBranch _ _ _
theorem OpcodeInPlace.cmp (rA : RegIdx) (src : Src) : OpcodeInPlace.Statement (.cmp rA src) := fun _ => opField_encodeSrc _ _ _
theorem OpcodeInPlace.cmpu (rA : RegIdx) (src : Src) : OpcodeInPlace.Statement (.cmpu rA src) := fun _ => opField_encodeSrc _ _ _
theorem OpcodeInPlace.lw (rA : RegIdx) (target : Target) : OpcodeInPlace.Statement (.lw rA target) := fun _ => opField_encodeTarget _ _ _
theorem OpcodeInPlace.ls (rA : RegIdx) (target : Target) : OpcodeInPlace.Statement (.ls rA target) := fun _ => opField_encodeTarget _ _ _
theorem OpcodeInPlace.lb (rA : RegIdx) (target : Target) : OpcodeInPlace.Statement (.lb rA target) := fun _ => opField_encodeTarget _ _ _
theorem OpcodeInPlace.stw (target : Target) (rA : RegIdx) : OpcodeInPlace.Statement (.stw target rA) := fun _ => opField_encodeTarget _ _ _
theorem OpcodeInPlace.sts (target : Target) (rA : RegIdx) : OpcodeInPlace.Statement (.sts target rA) := fun _ => opField_encodeTarget _ _ _
theorem OpcodeInPlace.stb (target : Target) (rA : RegIdx) : OpcodeInPlace.Statement (.stb target rA) := fun _ => opField_encodeTarget _ _ _

end Sys2Proof.Laws
end

