-- ==== Sys2Proof/Tests/Slice0.lean ====
section
/-! SUPPORT. Tests. The expected words and values are those of spec/95_test_vectors.md (its sections 2, 3 and 4, derived there from the spec's rules), or are
worked out by hand from the rule named. The witnesses show states and operands that meet the hypotheses of the statements. -/

namespace Sys2Proof.Tests

open Sys2Proof Sys2Proof.Machine

/-! ## Helpers -/

/-- The flags in the order `e z o s`. -/
def fl (e z o s : Nat) : Flags := { e := e == 1, z := z == 1, o := o == 1, s := s == 1 }

/-- The reset state with a `pc`, some registers, flags, MEM_VALID and the bytes of an image. -/
def boot (pc : Word) (rs : List (RegIdx × Word)) (f : Flags) (valid : List Region) (image : List (Word × List Byte)) : State :=
  rs.foldl (fun s r => s.setReg r.1 r.2)
    (State.resetWith { defaultParams with memValid := valid } pc (Vector.replicate 32 0) f (Memory.ofImage image))

/-- The start of a vector of 95_test_vectors.md section 3: MEM_VALID holds the instruction at `pc` and nothing else. -/
def vec (pc : Word) (rs : List (RegIdx × Word)) (f : Flags) (w : Word) : State :=
  boot pc rs f [{ base := pc.toNat, size := 4 }] [(pc, cellBytes .little 4 w)]

/-- MEM_VALID of the memory access vectors. -/
def cellsValid : List Region := [{ base := 0x100, size := 8 }, { base := 0x400, size := 4 }]

/-- The start of a load's vector. -/
def cells (rs : List (RegIdx × Word)) (f : Flags) (w : Word) : State :=
  boot 0x400 rs f cellsValid [(0x100, [0xD4, 0xC3, 0xB2, 0xA1, 0x00, 0x80, 0xFF, 0x7F]), (0x400, cellBytes .little 4 w)]

/-- The start of a store's vector. -/
def blank (rs : List (RegIdx × Word)) (f : Flags) (w : Word) : State := boot 0x400 rs f cellsValid [(0x400, cellBytes .little 4 w)]

/-- One step from `s` is a next state with these registers, flags, `pc` and bytes. -/
def after (s : State) (rs : List (RegIdx × Word)) (f : Flags) (pc : Word) (bs : List (Word × Byte)) : Bool :=
  match step s with
  | .next t => rs.all (fun r => t.reg r.1 == r.2) && t.flags == f && t.pc == pc && bs.all fun b => t.byteAt b.1 == b.2
  | _ => false

/-- One step from `s` is the fault `f`. -/
def stops (s : State) (f : Fault) : Bool :=
  match step s with
  | .fault g => g == f
  | _ => false

/-- The word decodes to the instruction, from the word and from the opcode table's numbering, and the instruction encodes to it. -/
def words (w : Word) (i : Instr) : Bool :=
  (match decode defaultOpMap w with
    | .ok d => d == i
    | .error _ => false) && encode defaultOpMap i == w && decodeTableWord 32 w.toNat == some i

/-! ## Well-formedness: each check refuses an ill-formed term and accepts its neighbour -/

/-- 30_encoding.md R91: 6 and 7 are reserved. -/
theorem test_flag_selector : flagSelectorWf 6 = false ∧ flagSelectorWf 7 = false ∧ flagSelectorWf 5 = true := by decide
/-- 30_encoding.md R104: the ranges of a signed field of 15 bits. -/
theorem test_signed_immediate :
    fitsSigned 15 16384 = false ∧ fitsSigned 15 (-16385) = false ∧ fitsSigned 15 16383 = true ∧ fitsSigned 15 (-16384) = true := by
  decide
/-- 30_encoding.md R104: the range of `cmpu`. -/
theorem test_unsigned_immediate :
    fitsUnsigned 15 32768 = false ∧ fitsUnsigned 15 (-1) = false ∧ fitsUnsigned 15 32767 = true ∧ fitsUnsigned 15 0 = true := by
  decide
/-- 30_encoding.md R95: two operations on one `OP` value. -/
theorem test_opcode_map : OpMap.wf { defaultOpMap with ls := 1 } = false ∧ defaultOpMap.wf = true := by decide
/-- 10_state.md R21: two names on one number. -/
theorem test_register_numbers :
    RegNum.wf { defaultRegNum with sp := 30 } = false ∧ defaultRegNum.wf = true ∧ defaultRegNum.number (.r 29) = 29 ∧
      defaultRegNum.number .fp = 30 ∧ defaultRegNum.number .sp = 31 := by decide
/-- 20_memory.md R56, R57: a range beyond the 32-bit space. -/
theorem test_region : Region.wf { base := 1, size := 2 ^ 32 } = false ∧ Region.wf { base := 0, size := 2 ^ 32 } = true := by decide
/-- Parameters with an ill-formed part. -/
theorem test_params :
    Params.wf { defaultParams with memValid := [{ base := 2 ^ 32, size := 1 }] } = false ∧
      Params.wf { defaultParams with opMap := { defaultOpMap with ls := 1 } } = false ∧ defaultParams.wf = true := by decide
/-- 10_state.md R40: RESET_PC is a multiple of 4. -/
theorem test_reset_pc : resetPcWf 2 = false ∧ resetPcWf 0xFFFFFFFC = true := by decide

/-! ## Encodings: each constructor's word, field by field as in the format tables (30_encoding.md R81, R82, R84, R95) -/

theorem test_word_add : words 0b111111111111100_1_00000_11111_011100 (.add 31 (.imm 0x7FFC)) = true := by decide
theorem test_word_add_register : words 0b000000000000000_0_00010_00001_011100 (.add 1 (.reg 2)) = true := by decide
theorem test_word_dec : words 0b000000000000000_0_00000_00011_011011 (.dec 3) = true := by decide
theorem test_word_inc : words 0b000000000000000_0_00000_00011_011010 (.inc 3) = true := by decide
theorem test_word_mul : words 0b000000000000011_1_00000_00100_011110 (.mul 4 (.imm 3)) = true := by decide
theorem test_word_sub : words 0b000000000000000_0_00010_00001_011101 (.sub 1 (.reg 2)) = true := by decide
theorem test_word_and : words 0b011111111111111_1_00000_00001_100010 (.and 1 (.imm 0x3FFF)) = true := by decide
theorem test_word_not : words 0b000000000000000_0_00000_00111_100101 (.not 7) = true := by decide
theorem test_word_or : words 0b111111111111110_1_00000_00001_100011 (.or 1 (.imm 0x7FFE)) = true := by decide
theorem test_word_shiftl : words 0b000000000011111_1_00000_00001_100110 (.shiftl 1 (.imm 31)) = true := by decide
theorem test_word_shiftr : words 0b000000000000000_0_00010_00001_100111 (.shiftr 1 (.reg 2)) = true := by decide
theorem test_word_shiftrs : words 0b000000000000100_1_00000_00001_101000 (.shiftrs 1 (.imm 4)) = true := by decide
theorem test_word_xor : words 0b000000000000000_0_00001_00001_100100 (.xor 1 (.reg 1)) = true := by decide
theorem test_word_j : words 0b11111111111111111111_1_00000_101110 (.j (.rel 0xFFFFF)) = true := by decide
theorem test_word_j_register : words 0b00000000000000000000_0_00101_101110 (.j (.reg 5)) = true := by decide
theorem test_word_be : words 0b0000000000000010_1_1_000_00000_110010 (.be (.rel 2)) = true := by decide
theorem test_word_bne : words 0b1111111111111101_1_0_000_00000_110010 (.bne (.rel 0xFFFD)) = true := by decide
theorem test_word_bz : words 0b0000000000000001_1_1_001_00000_110010 (.bz (.rel 1)) = true := by decide
theorem test_word_bnz : words 0b1111111111111101_1_0_001_00000_110010 (.bnz (.rel 0xFFFD)) = true := by decide
theorem test_word_bo : words 0b0000000000000001_1_1_010_00000_110010 (.bo (.rel 1)) = true := by decide
theorem test_word_bno : words 0b0000000000000001_1_0_010_00000_110010 (.bno (.rel 1)) = true := by decide
theorem test_word_bs : words 0b0000000000000001_1_1_011_00000_110010 (.bs (.rel 1)) = true := by decide
theorem test_word_bns : words 0b0000000000000001_1_0_011_00000_110010 (.bns (.rel 1)) = true := by decide
theorem test_word_bl : words 0b1111111111111100_1_1_100_00000_110010 (.bl (.rel 0xFFFC)) = true := by decide
theorem test_word_bge : words 0b0111111111111111_1_0_100_00000_110010 (.bge (.rel 0x7FFF)) = true := by decide
theorem test_word_bg : words 0b0000000000000000_0_1_101_00010_110010 (.bg (.reg 2)) = true := by decide
theorem test_word_ble : words 0b0000000000000000_0_0_101_00010_110010 (.ble (.reg 2)) = true := by decide
theorem test_word_cmp : words 0b111111111111111_1_00000_00001_101111 (.cmp 1 (.imm 0x7FFF)) = true := by decide
theorem test_word_cmpu : words 0b111111111111111_1_00000_00001_110000 (.cmpu 1 (.imm 0x7FFF)) = true := by decide
theorem test_word_lw : words 0b111111111111100_1_11111_00001_000001 (.lw 1 (.disp 31 0x7FFC)) = true := by decide
theorem test_word_ls : words 0b000000000000010_1_00010_00001_000010 (.ls 1 (.disp 2 2)) = true := by decide
theorem test_word_lb : words 0b000000000000000_0_11110_00001_000011 (.lb 1 (.base 30)) = true := by decide
theorem test_word_stw : words 0b111111111111100_1_11111_11110_000100 (.stw (.disp 31 0x7FFC) 30) = true := by decide
theorem test_word_sts : words 0b000000000000010_1_00010_00001_000101 (.sts (.disp 2 2) 1) = true := by decide
theorem test_word_stb : words 0b111111111111111_1_00010_00001_000110 (.stb (.disp 2 0x7FFF) 1) = true := by decide
/-- The unused fields of `j r5` carry arbitrary bits (30_encoding.md R89). -/
theorem test_unused_fields_ignored : decode defaultOpMap 0xABCDE16E = .ok (.j (.reg 5)) := by decide
/-- 30_encoding.md R91, R96: reserved `F`, unassigned `OP`. -/
theorem test_illegal_words :
    decode defaultOpMap 0x0001F032 = .error (.reservedCond 6) ∧ decode defaultOpMap 0x0001F832 = .error (.reservedCond 7) ∧
      decode defaultOpMap 0x00000000 = .error (.unassignedOp 0) ∧ decodeTableWord 32 0x3F = none := by decide
/-- 30_encoding.md R80: fewer than four bytes are no instruction, and the bytes after an instruction are left. -/
theorem test_bytes :
    decodeBytes .little defaultOpMap [0x5C, 0x00, 0x0B] = .error (.tooShort 3) ∧
      decodeBytes .little defaultOpMap [0x5C, 0x00, 0x0B, 0x00, 0x7F] = .ok (.add 1 (.imm 5), [0x7F]) ∧
      decodeBytes .big defaultOpMap [0x00, 0x0B, 0x00, 0x5C] = .ok (.add 1 (.imm 5), []) := by decide
/-- An instruction placed after reset runs as the first one: `add r1, 5`, then `be 2` with `e` clear. -/
theorem test_first_instruction :
    after (State.reset.withFetchWord 32 0x000B005C) [(1, 5)] (fl 0 0 0 0) 4 [] = true ∧
      after (State.reset.withFetchWord 32 0x0002C032) [(1, 0)] (fl 0 0 0 0) 4 [] = true := by decide

/-! ## One step: vectors of 95_test_vectors.md section 3 -/

/-- `add r1, r2` -/
theorem test_add_wraps_unsigned :
    after (vec 0x400 [(1, 0xFFFFFFFF), (2, 0x1)] (fl 0 0 0 0) 0x0000105C) [(1, 0x0), (2, 0x1)] (fl 0 1 1 0) 0x404 [] = true := by decide
/-- `add sp, -4` -/
theorem test_add_negative_immediate :
    after (vec 0x400 [(31, 0x1000)] (fl 0 0 0 0) 0xFFF907DC) [(31, 0xFFC)] (fl 0 0 1 0) 0x404 [] = true := by decide
/-- `inc r3` -/
theorem test_inc_wraps :
    after (vec 0x400 [(3, 0xFFFFFFFF)] (fl 0 0 0 0) 0x000000DA) [(3, 0x0)] (fl 0 1 1 0) 0x404 [] = true := by decide
/-- `inc r3` -/
theorem test_inc_to_negative :
    after (vec 0x400 [(3, 0x7FFFFFFF)] (fl 0 0 0 0) 0x000000DA) [(3, 0x80000000)] (fl 0 0 0 1) 0x404 [] = true := by decide
/-- `dec r3` -/
theorem test_dec_wraps :
    after (vec 0x400 [(3, 0x0)] (fl 0 0 0 0) 0x000000DB) [(3, 0xFFFFFFFF)] (fl 0 0 1 1) 0x404 [] = true := by decide
/-- `dec r3` -/
theorem test_dec_of_lowest :
    after (vec 0x400 [(3, 0x80000000)] (fl 0 0 0 0) 0x000000DB) [(3, 0x7FFFFFFF)] (fl 0 0 0 0) 0x404 [] = true := by decide
/-- `mul r4, r5` -/
theorem test_mul_drops_high_half :
    after (vec 0x400 [(4, 0x10001), (5, 0x10001)] (fl 0 0 0 0) 0x0000291E) [(4, 0x20001), (5, 0x10001)] (fl 0 0 1 0) 0x404 [] = true := by decide
/-- `mul r4, -1` -/
theorem test_mul_negative_immediate :
    after (vec 0x400 [(4, 0x5)] (fl 0 0 0 0) 0xFFFF011E) [(4, 0xFFFFFFFB)] (fl 0 0 1 1) 0x404 [] = true := by decide
/-- `sub r1, r2` -/
theorem test_sub_keeps_o :
    after (vec 0x400 [(1, 0x3), (2, 0x5)] (fl 0 0 1 0) 0x0000105D) [(1, 0xFFFFFFFE), (2, 0x5)] (fl 0 0 1 1) 0x404 [] = true := by decide
/-- `sub r1, -1` -/
theorem test_sub_immediate :
    after (vec 0x400 [(1, 0x7FFFFFFF)] (fl 1 0 0 0) 0xFFFF005D) [(1, 0x80000000)] (fl 1 0 0 1) 0x404 [] = true := by decide
/-- `and r0, 0` -/
theorem test_and_immediate_keeps_e_and_o :
    after (vec 0x400 [(0, 0xDEADBEEF)] (fl 1 1 1 1) 0x00010022) [(0, 0x0)] (fl 1 1 1 0) 0x404 [] = true := by decide
/-- `and r1, r2` -/
theorem test_and_registers :
    after (vec 0x400 [(1, 0xF0F0F0F0), (2, 0xFF00FF00)] (fl 0 0 0 0) 0x00001062) [(1, 0xF000F000), (2, 0xFF00FF00)] (fl 0 0 0 1) 0x404 [] = true := by decide
/-- `not r7` -/
theorem test_not_negates :
    after (vec 0x400 [(7, 0xF0F0F0F)] (fl 0 0 0 0) 0x000001E5) [(7, 0xF0F0F0F0)] (fl 0 0 0 1) 0x404 [] = true := by decide
/-- `not r7` -/
theorem test_not_to_zero :
    after (vec 0x400 [(7, 0xFFFFFFFF)] (fl 0 0 0 0) 0x000001E5) [(7, 0x0)] (fl 0 1 0 0) 0x404 [] = true := by decide
/-- `or r1, r2` -/
theorem test_or_registers :
    after (vec 0x400 [(1, 0xF0F0F0F0), (2, 0xF0F0F0F)] (fl 0 0 0 0) 0x00001063) [(1, 0xFFFFFFFF), (2, 0xF0F0F0F)] (fl 0 0 0 1) 0x404 [] = true := by decide
/-- `or r1, -2` -/
theorem test_or_negative_immediate :
    after (vec 0x400 [(1, 0x1)] (fl 0 0 0 0) 0xFFFD0063) [(1, 0xFFFFFFFF)] (fl 0 0 0 1) 0x404 [] = true := by decide
/-- `xor r1, r2` -/
theorem test_xor_registers :
    after (vec 0x400 [(1, 0xFFFF0000), (2, 0xFF00FF00)] (fl 0 0 0 0) 0x00001064) [(1, 0xFFFF00), (2, 0xFF00FF00)] (fl 0 0 0 0) 0x404 [] = true := by decide
/-- `xor r1, r1` -/
theorem test_xor_same_register :
    after (vec 0x400 [(1, 0x12345678)] (fl 0 0 0 0) 0x00000864) [(1, 0x0)] (fl 0 1 0 0) 0x404 [] = true := by decide
/-- `shiftl r1, r2` -/
theorem test_shiftl_by_32 :
    after (vec 0x400 [(1, 0xFFFFFFFF), (2, 0x20)] (fl 0 0 0 0) 0x00001066) [(1, 0x0), (2, 0x20)] (fl 0 1 0 0) 0x404 [] = true := by decide
/-- `shiftl r1, r1` -/
theorem test_shiftl_own_amount :
    after (vec 0x400 [(1, 0x3)] (fl 0 0 0 0) 0x00000866) [(1, 0x18)] (fl 0 0 0 0) 0x404 [] = true := by decide
/-- `shiftr r1, 4` -/
theorem test_shiftr_fills_zero :
    after (vec 0x400 [(1, 0x87654321)] (fl 0 0 0 0) 0x00090067) [(1, 0x8765432)] (fl 0 0 0 0) 0x404 [] = true := by decide
/-- `shiftr r1, r2` -/
theorem test_shiftr_by_32 :
    after (vec 0x400 [(1, 0x80000000), (2, 0x20)] (fl 0 0 0 0) 0x00001067) [(1, 0x0), (2, 0x20)] (fl 0 1 0 0) 0x404 [] = true := by decide
/-- `shiftrs r1, 4` -/
theorem test_shiftrs_fills_sign :
    after (vec 0x400 [(1, 0x87654321)] (fl 0 0 0 0) 0x00090068) [(1, 0xF8765432)] (fl 0 0 0 1) 0x404 [] = true := by decide
/-- `shiftrs r1, r2` -/
theorem test_shiftrs_by_32 :
    after (vec 0x400 [(1, 0x80000000), (2, 0x20)] (fl 0 0 0 0) 0x00001068) [(1, 0xFFFFFFFF), (2, 0x20)] (fl 0 0 0 1) 0x404 [] = true := by decide
/-- `cmp r1, r2` -/
theorem test_cmp_signed_order :
    after (vec 0x400 [(1, 0x80000000), (2, 0x7FFFFFFF)] (fl 0 0 0 0) 0x0000106F) [(1, 0x80000000), (2, 0x7FFFFFFF)] (fl 0 0 0 1) 0x404 [] = true := by decide
/-- `cmp r1, r2` -/
theorem test_cmp_equal_sets_e :
    after (vec 0x400 [(1, 0x5), (2, 0x5)] (fl 0 0 1 0) 0x0000106F) [(1, 0x5), (2, 0x5)] (fl 1 0 1 0) 0x404 [] = true := by decide
/-- `cmpu r1, r2` -/
theorem test_cmpu_unsigned_order :
    after (vec 0x400 [(1, 0x3), (2, 0xFFFFFFFB)] (fl 0 0 0 0) 0x00001070) [(1, 0x3), (2, 0xFFFFFFFB)] (fl 0 0 0 1) 0x404 [] = true := by decide
/-- `cmpu r1, 0x7FFF` -/
theorem test_cmpu_zero_extends :
    after (vec 0x400 [(1, 0x7FFF)] (fl 0 0 0 0) 0xFFFF0070) [(1, 0x7FFF)] (fl 1 0 0 0) 0x404 [] = true := by decide
/-- `j 3` -/
theorem test_j_forward :
    after (vec 0x400 [] (fl 0 0 0 0) 0x0000382E) [] (fl 0 0 0 0) 0x410 [] = true := by decide
/-- `j -524288` -/
theorem test_j_lowest_offset :
    after (vec 0x200000 [] (fl 0 0 0 0) 0x8000082E) [] (fl 0 0 0 0) 0x4 [] = true := by decide
/-- `be 2` -/
theorem test_be_taken :
    after (vec 0x400 [] (fl 1 0 0 0) 0x0002C032) [] (fl 1 0 0 0) 0x40C [] = true := by decide
/-- `be 2` -/
theorem test_be_not_taken :
    after (vec 0x400 [] (fl 0 1 1 1) 0x0002C032) [] (fl 0 1 1 1) 0x404 [] = true := by decide
/-- `bne -3` -/
theorem test_bne_taken :
    after (vec 0x40C [] (fl 0 0 0 0) 0xFFFD8032) [] (fl 0 0 0 0) 0x404 [] = true := by decide
/-- `bne -3` -/
theorem test_bne_not_taken :
    after (vec 0x40C [] (fl 1 0 0 0) 0xFFFD8032) [] (fl 1 0 0 0) 0x410 [] = true := by decide
/-- `bl -4` -/
theorem test_bl_taken :
    after (vec 0x410 [] (fl 0 0 0 1) 0xFFFCE032) [] (fl 0 0 0 1) 0x404 [] = true := by decide
/-- `bl -4` -/
theorem test_bl_not_taken_when_equal :
    after (vec 0x410 [] (fl 1 0 0 1) 0xFFFCE032) [] (fl 1 0 0 1) 0x414 [] = true := by decide
/-- `bge 32767` -/
theorem test_bge_highest_offset :
    after (vec 0x400 [] (fl 0 0 0 0) 0x7FFFA032) [] (fl 0 0 0 0) 0x20400 [] = true := by decide
/-- `bge -32768` -/
theorem test_bge_lowest_offset :
    after (vec 0x20000 [] (fl 1 0 0 1) 0x8000A032) [] (fl 1 0 0 1) 0x4 [] = true := by decide
/-- `bg r2` -/
theorem test_bg_register :
    after (vec 0x400 [(2, 0x800)] (fl 0 0 0 0) 0x000068B2) [(2, 0x800)] (fl 0 0 0 0) 0x800 [] = true := by decide
/-- `bg r2` -/
theorem test_bg_not_taken :
    after (vec 0x400 [(2, 0x800)] (fl 1 0 0 0) 0x000068B2) [(2, 0x800)] (fl 1 0 0 0) 0x404 [] = true := by decide
/-- `ble r2` -/
theorem test_ble_register :
    after (vec 0x400 [(2, 0x800)] (fl 0 0 0 1) 0x000028B2) [(2, 0x800)] (fl 0 0 0 1) 0x800 [] = true := by decide
/-- `ble r2` -/
theorem test_ble_not_taken :
    after (vec 0x400 [(2, 0x802)] (fl 0 0 0 0) 0x000028B2) [(2, 0x802)] (fl 0 0 0 0) 0x404 [] = true := by decide
/-- `bz 1` -/
theorem test_bz_taken :
    after (vec 0x400 [] (fl 0 1 0 0) 0x0001C832) [] (fl 0 1 0 0) 0x408 [] = true := by decide
/-- `bnz 1` -/
theorem test_bnz_not_taken :
    after (vec 0x400 [] (fl 0 1 0 0) 0x00018832) [] (fl 0 1 0 0) 0x404 [] = true := by decide
/-- `bo 1` -/
theorem test_bo_taken :
    after (vec 0x400 [] (fl 0 0 1 0) 0x0001D032) [] (fl 0 0 1 0) 0x408 [] = true := by decide
/-- `bno 1` -/
theorem test_bno_not_taken :
    after (vec 0x400 [] (fl 0 0 1 0) 0x00019032) [] (fl 0 0 1 0) 0x404 [] = true := by decide
/-- `bs 1` -/
theorem test_bs_taken :
    after (vec 0x400 [] (fl 0 0 0 1) 0x0001D832) [] (fl 0 0 0 1) 0x408 [] = true := by decide
/-- `bns 1` -/
theorem test_bns_not_taken :
    after (vec 0x400 [] (fl 0 0 0 1) 0x00019832) [] (fl 0 0 0 1) 0x404 [] = true := by decide
/-- `lw r1, r2[-4]` -/
theorem test_lw_negative_offset :
    after (cells [(1, 0x55555555), (2, 0x108)] (fl 0 0 0 0) 0xFFF91041) [(1, 0x7FFF8000), (2, 0x108)] (fl 0 0 0 0) 0x404 [] = true := by decide
/-- `lw r2, r2` -/
theorem test_lw_own_base :
    after (cells [(2, 0x100)] (fl 0 0 0 0) 0x00001081) [(2, 0xA1B2C3D4)] (fl 0 0 0 1) 0x404 [] = true := by decide
/-- `ls r1, r2[2]` -/
theorem test_ls_upper_half :
    after (cells [(1, 0x55555555), (2, 0x100)] (fl 0 0 0 0) 0x00051042) [(1, 0xA1B2), (2, 0x100)] (fl 0 0 0 0) 0x404 [] = true := by decide
/-- `ls r1, r2[4]` -/
theorem test_ls_zero_extends :
    after (cells [(1, 0x55555555), (2, 0x100)] (fl 0 0 0 1) 0x00091042) [(1, 0x8000), (2, 0x100)] (fl 0 0 0 0) 0x404 [] = true := by decide
/-- `lb r1, fp` -/
theorem test_lb_zero_extends :
    after (cells [(1, 0x55555555), (30, 0x106)] (fl 0 0 0 0) 0x0000F043) [(1, 0xFF), (30, 0x106)] (fl 0 0 0 0) 0x404 [] = true := by decide
/-- `lb r1, r2[4]` -/
theorem test_lb_zero_sets_z :
    after (cells [(1, 0x55555555), (2, 0x100)] (fl 1 0 1 1) 0x00091043) [(1, 0x0), (2, 0x100)] (fl 1 1 1 0) 0x404 [] = true := by decide
/-- `stw r2, r1` -/
theorem test_stw_keeps_flags :
    after (blank [(1, 0xA1B2C3D4), (2, 0x100)] (fl 1 1 1 1) 0x00001044) [(1, 0xA1B2C3D4), (2, 0x100)] (fl 1 1 1 1) 0x404 [(0x100, 0xD4), (0x101, 0xC3), (0x102, 0xB2), (0x103, 0xA1)] = true := by decide
/-- `stw sp[-4], fp` -/
theorem test_stw_frame_slot :
    after (blank [(30, 0x11223344), (31, 0x108)] (fl 0 0 0 0) 0xFFF9FF84) [(30, 0x11223344), (31, 0x108)] (fl 0 0 0 0) 0x404 [(0x104, 0x44), (0x105, 0x33), (0x106, 0x22), (0x107, 0x11)] = true := by decide
/-- `sts r2[2], r1` -/
theorem test_sts_low_half :
    after (blank [(1, 0xA1B2C3D4), (2, 0x100)] (fl 0 0 0 0) 0x00051045) [(1, 0xA1B2C3D4), (2, 0x100)] (fl 0 0 0 0) 0x404 [(0x102, 0xD4), (0x103, 0xC3)] = true := by decide
/-- `sts r2, r1` -/
theorem test_sts_top :
    after (blank [(1, 0xA1B2C3D4), (2, 0x106)] (fl 0 0 0 0) 0x00001045) [(1, 0xA1B2C3D4), (2, 0x106)] (fl 0 0 0 0) 0x404 [(0x106, 0xD4), (0x107, 0xC3)] = true := by decide
/-- `stb r2[3], r1` -/
theorem test_stb_low_byte :
    after (blank [(1, 0xA1B2C3D4), (2, 0x100)] (fl 0 0 0 0) 0x00071046) [(1, 0xA1B2C3D4), (2, 0x100)] (fl 0 0 0 0) 0x404 [(0x103, 0xD4)] = true := by decide
/-- `stb r2[-1], r1` -/
theorem test_stb_negative_offset :
    after (blank [(1, 0xA1B2C3D4), (2, 0x108)] (fl 0 0 0 0) 0xFFFF1046) [(1, 0xA1B2C3D4), (2, 0x108)] (fl 0 0 0 0) 0x404 [(0x107, 0xD4)] = true := by decide

/-! ## Witnesses: states and operands that meet the hypotheses of a statement -/

/-- A second legal OPMAP, in which `lw` and `branch` have exchanged their values. -/
def otherOpMap : OpMap := { defaultOpMap with lw := 50, branch := 1 }

theorem witness_DecodeOfEncode :
    defaultOpMap.wf = true ∧ otherOpMap.wf = true ∧ decode otherOpMap (encode otherOpMap (.lw 31 (.disp 31 0x4000))) = .ok (.lw 31 (.disp 31 0x4000)) := by
  decide
theorem witness_UnusedFieldsAreIgnored :
    decode defaultOpMap 0xABCDE16E = .ok (.j (.reg 5)) ∧ (0x0000016E : Word) &&& usedBits (.j (.reg 5)) = 0xABCDE16E &&& usedBits (.j (.reg 5)) ∧
      decode defaultOpMap 0x0000016E = .ok (.j (.reg 5)) := by decide
/-- An assigned `OP`, an unassigned one, and a BRANCH with `F` of 5 and of 6. -/
theorem witness_IllegalWordsAreExactlyReserved :
    defaultOpMap.wf = true ∧ opField 0x0000105C ∈ defaultOpMap.codes ∧ opField 0x0000003F ∉ defaultOpMap.codes ∧
      opField 0x000028B2 = defaultOpMap.branch ∧ (0x000028B2 : Word).toNat / 2 ^ 11 % 8 = 5 ∧
      opField 0x000030B2 = defaultOpMap.branch ∧ (0x000030B2 : Word).toNat / 2 ^ 11 % 8 = 6 := by decide
theorem witness_ConditionTable :
    testOf 5 0 = some .le ∧ testHolds .le (fl 0 0 0 1) = true ∧ flagVal 5 (fl 0 0 0 1) = some false ∧
      testOf 0 1 = some .e ∧ testHolds .e (fl 0 1 1 1) = false := by decide
theorem witness_ReservedConditionFields : testOf 6 0 = none ∧ testOf 7 1 = none ∧ testOf 5 1 = some .g := by decide
theorem witness_WrittenImmediatesFit :
    writtenImm 15 (-16384) = some 0x4000 ∧ writtenImm 15 16383 = some 0x3FFF ∧ writtenImm 16 (-32768) = some 0x8000 ∧
      writtenImm 16 32767 = some 0x7FFF ∧ writtenImm 20 (-524288) = some 0x80000 ∧ writtenImm 20 524287 = some 0x7FFFF ∧
      writtenUImm 15 0 = some 0 ∧ writtenUImm 15 32767 = some 0x7FFF ∧ writtenImm 15 16384 = none ∧ writtenUImm 15 (-1) = none := by
  decide
/-- `j 3` and `j 524287` at 0x400, `bge 32767` at 0x400 and `bge -32768` at 0x20000 (95_test_vectors.md section 3), as labels. -/
theorem witness_LabelFieldReachesLabel :
    (vec 0x400 [] (fl 0 0 0 0) 0).params.branchBase = .next ∧ labelField 20 0x400 0x410 = some 3 ∧
      labelField 20 0x400 0x00200400 = some 0x7FFFF ∧ labelField 16 0x400 0x00020400 = some 0x7FFF ∧
      labelField 16 0x00020000 4 = some 0x8000 ∧ labelField 16 0x400 0x00020404 = none ∧ labelField 20 0x400 0x402 = none := by decide
/-- `j -1` at 0x408 under each BRANCH_BASE (95_test_vectors.md section 3; decision D15). -/
theorem witness_BranchTargets :
    (vec 0x408 [] (fl 0 0 0 0) 0).jumpTarget (.rel 0xFFFFF) = 0x408 ∧
      State.jumpTarget { vec 0x408 [] (fl 0 0 0 0) 0 with params := { defaultParams with branchBase := .self } } (.rel 0xFFFFF) = 0x404 := by
  decide
theorem witness_StepRunsDecodedInstruction :
    (vec 0xFFFFFFFC [] (fl 0 0 0 0) 0x0000082E).pc.toNat % 4 = 0 ∧
      hasBytes (vec 0xFFFFFFFC [] (fl 0 0 0 0) 0x0000082E).params 0xFFFFFFFC 4 = true ∧
      decode defaultOpMap ((vec 0xFFFFFFFC [] (fl 0 0 0 0) 0x0000082E).memRead 0xFFFFFFFC 4) = .ok (.j (.rel 0)) := by decide
/-- Each clause of the order of faults, and the first of two that both apply (95_test_vectors.md sections 3 and 4). -/
theorem witness_StepFaultsInOrder :
    stops (boot 0x402 [] (fl 0 0 0 0) [] []) (.misalignedFetch 0x402) = true ∧
      stops (boot 0x400 [] (fl 0 0 0 0) [{ base := 0x400, size := 3 }] []) (.accessFault 0x400 4 .fetch) = true ∧
      stops (vec 0x400 [] (fl 0 0 0 0) 0x0001F832) (.illegalInstruction 0x0001F832) = true ∧
      stops (vec 0x400 [] (fl 0 0 0 0) 0x0000003F) (.illegalInstruction 0x0000003F) = true ∧
      stops (cells [(2, 0x201)] (fl 0 0 0 0) 0x00001041) (.misalignedAccess 0x201 4) = true ∧
      stops (cells [(2, 0x104)] (fl 0 0 0 0) 0x00091041) (.accessFault 0x108 4 .load) = true ∧
      stops (blank [(2, 0x106)] (fl 0 0 0 0) 0x00001044) (.misalignedAccess 0x106 4) = true ∧
      stops (blank [(2, 0xFF)] (fl 0 0 0 0) 0x00001046) (.accessFault 0xFF 1 .store) = true := by decide
theorem witness_OnlyMemoryAccessFaults :
    loadsFrom (.mul 4 (.imm 3)) State.reset = none ∧ storesTo (.mul 4 (.imm 3)) State.reset = none := by decide
/-- The reset state, and a state at a misaligned `pc` with an empty MEM_VALID. -/
theorem witness_PlacedInstructionRuns : State.reset.Inv ∧ (boot 0xFFFFFFFF [] (fl 1 1 1 1) [] []).Inv ∧
    after ((boot 0xFFFFFFFF [] (fl 1 1 1 1) [] []).withFetchWord 32 0x0000082E) [] (fl 1 1 1 1) 0 [] = true := by
  refine ⟨⟨by decide, by decide⟩, ⟨by decide, by decide⟩, by decide⟩
/-- A store from a state with canonical memory. -/
theorem witness_StepKeepsInvariant :
    (∃ t, step (blank [(1, 0xA1B2C3D4), (2, 0x100)] (fl 0 0 0 0) 0x00001044) = .next t) ∧
      (blank [(1, 0xA1B2C3D4), (2, 0x100)] (fl 0 0 0 0) 0x00001044).Inv := by
  refine ⟨⟨_, rfl⟩, by decide, by decide⟩
/-- RESET_PC at the top of the space; misaligned; with a byte outside MEM_VALID. -/
theorem witness_ResetFetchesLaunchImage :
    bootOk defaultParams 0xFFFFFFFC = true ∧ bootOk defaultParams 0xFFFFFFFE = false ∧
      bootOk { defaultParams with memValid := [{ base := 0, size := 3 }] } 0 = false := by decide
theorem witness_CanonicalMemoryIsUnique :
    Memory.wf [(0, 1), (0xFFFFFFFF, 2)] = true ∧ (Memory.ofImage [(0xFFFFFFFF, [2, 1])]) = [(0, 1), (0xFFFFFFFF, 2)] := by decide
/-- The parameter variants of 95_test_vectors.md section 5 for OVERFLOW_RULE. -/
theorem witness_OverflowRules :
    overflow .unsigned .add 0xFFFFFFFF 1 = true ∧ overflow .signed .add 0xFFFFFFFF 1 = false ∧ overflow .unsigned .add 0x7FFFFFFF 1 = false ∧
      overflow .signed .add 0x7FFFFFFF 1 = true ∧ overflow .signed .add 0x80000000 0x80000000 = true := by decide
/-- The amounts 31 and 32 under each SHIFT_OVER (41_bitwise.md R148). -/
theorem witness_ShiftResults :
    (defaultParams.shiftOver = .allOut ∧ (State.reset.op2 (.imm 32)).toNat = 32) ∧
      shiftLeft 3 (shiftAmount .allOut 31) = 0x80000000 ∧ shiftLeft 3 (shiftAmount .allOut 32) = 0 ∧
      shiftLeft 3 (shiftAmount .mod32 32) = 3 ∧ shiftRightSigned 0x80000000 (shiftAmount .allOut 0xFFFFFFFF) = 0xFFFFFFFF := by decide
theorem witness_ConditionalBranches :
    (fl 0 0 0 1).e = false ∧ (fl 0 0 0 1).s = true ∧ (fl 1 0 0 0).e = true ∧ (fl 0 0 0 0).s = false := by decide
/-- `j r5` and `ble r2` to a misaligned address (95_test_vectors.md section 3). -/
theorem witness_MisalignedTargetFaultsAtNextFetch :
    ((vec 0x400 [(5, 0x1002)] (fl 1 0 0 0) 0x0000016E).reg 5).toNat % 4 ≠ 0 ∧ testHolds .le (fl 1 0 0 0) = true := by decide
theorem witness_OnlyRegisterJumpsMisalign :
    after (vec 0x400 [(5, 0x1002)] (fl 0 0 0 0) 0x0000016E) [] (fl 0 0 0 0) 0x1002 [] = true ∧
      after (vec 0x400 [(2, 0x802)] (fl 1 0 0 0) 0x000028B2) [] (fl 1 0 0 0) 0x802 [] = true := by decide
/-- `cmp r1, r2` on equal operands under each CMP_EZ (95_test_vectors.md section 5). -/
theorem witness_CompareResults :
    after (vec 0x400 [(1, 5), (2, 5)] (fl 0 0 0 0) 0x0000106F) [] (fl 1 0 0 0) 0x404 [] = true ∧
      after { vec 0x400 [(1, 5), (2, 5)] (fl 0 0 0 0) 0x0000106F with
        params := { defaultParams with cmpEZ := .literal } } [] (fl 0 1 0 0) 0x404 [] = true := by decide
theorem witness_TestsAfterSignedCompare : State.reset.params.cmpEZ = .swapped := by decide
theorem witness_TestsAfterUnsignedCompare : (vec 0x400 [(1, 3), (2, 0xFFFFFFFB)] (fl 0 0 0 0) 0x00001070).params.cmpEZ = .swapped := by decide
theorem witness_TestsAfterLiteralCompare :
    (State.resetWith { defaultParams with cmpEZ := .literal } 0 (Vector.replicate 32 7) (fl 0 0 0 0) []).params.cmpEZ = .literal := by decide
/-- The last word of the address space. -/
theorem witness_LoadWordResult :
    (State.reset.ea (.disp 0 0x7FFC)) = 0xFFFFFFFC ∧ (State.reset.ea (.disp 0 0x7FFC)).toNat % 4 = 0 ∧
      hasBytes State.reset.params (State.reset.ea (.disp 0 0x7FFC)) 4 = true := by decide
/-- The last short and the last byte of a range. -/
theorem witness_NarrowLoadResults :
    ((cells [(2, 0x106)] (fl 0 0 0 0) 0).ea (.base 2)).toNat % 2 = 0 ∧ hasBytes (cells [(2, 0x106)] (fl 0 0 0 0) 0).params 0x106 2 = true ∧
      hasBytes (cells [(2, 0x107)] (fl 0 0 0 0) 0).params 0x107 1 = true ∧ hasBytes (cells [(2, 0x107)] (fl 0 0 0 0) 0).params 0x108 1 = false := by
  decide
/-- The last word, short and byte of a range. -/
theorem witness_StoreResults :
    (blank [(2, 0x104)] (fl 0 0 0 0) 0).mem.wf = true ∧ ((blank [(2, 0x104)] (fl 0 0 0 0) 0).ea (.base 2)).toNat % 4 = 0 ∧
      hasBytes (blank [(2, 0x104)] (fl 0 0 0 0) 0).params ((blank [(2, 0x104)] (fl 0 0 0 0) 0).ea (.base 2)) 4 = true ∧
      ((blank [(2, 0x104)] (fl 0 0 0 0) 0).ea (.disp 2 2)).toNat % 2 = 0 ∧
      hasBytes (blank [(2, 0x104)] (fl 0 0 0 0) 0).params ((blank [(2, 0x104)] (fl 0 0 0 0) 0).ea (.disp 2 2)) 2 = true ∧
      hasBytes (blank [(2, 0x104)] (fl 0 0 0 0) 0).params ((blank [(2, 0x104)] (fl 0 0 0 0) 0).ea (.disp 2 3)) 1 = true := by decide
theorem witness_MemoryAccessFaults :
    (loadsFrom (.lw 1 (.base 2)) (cells [(2, 0x102)] (fl 0 0 0 0) 0) = some (0x102, 4) ∧ (0x102 : Word).toNat % 4 ≠ 0) ∧
      (loadsFrom (.lw 1 (.base 2)) (cells [(2, 0x108)] (fl 0 0 0 0) 0) = some (0x108, 4) ∧ (0x108 : Word).toNat % 4 = 0 ∧
        hasBytes (cells [(2, 0x108)] (fl 0 0 0 0) 0).params 0x108 4 = false) ∧
      (storesTo (.sts (.base 2) 1) (blank [(2, 0x101)] (fl 0 0 0 0) 0) = some (0x101, 2) ∧ (0x101 : Word).toNat % 2 ≠ 0) ∧
      (storesTo (.stb (.base 2) 1) (blank [(2, 0xFF)] (fl 0 0 0 0) 0) = some (0xFF, 1) ∧
        hasBytes (blank [(2, 0xFF)] (fl 0 0 0 0) 0).params 0xFF 1 = false) := by decide
/-- The word and the short at 0x100 of the load vectors under each BYTE_ORDER. -/
theorem witness_MemReadAssemblesBytes :
    (cells [] (fl 0 0 0 0) 0).params.byteOrder = .little ∧ (cells [] (fl 0 0 0 0) 0).memRead 0x100 4 = 0xA1B2C3D4 ∧
      State.memRead { cells [] (fl 0 0 0 0) 0 with params := { defaultParams with byteOrder := .big } } 0x100 4 = 0xD4C3B2A1 ∧
      State.memRead { cells [] (fl 0 0 0 0) 0 with params := { defaultParams with byteOrder := .big } } 0x100 2 = 0xD4C3 := by decide
theorem witness_LoadAfterStore :
    State.reset.mem.wf = true ∧ (State.reset.ea (.disp 0 0x7FFC)).toNat % 4 = 0 ∧ (State.reset.ea (.disp 0 0x7FFC)).toNat % 2 = 0 ∧
      hasBytes State.reset.params (State.reset.ea (.disp 0 0x7FFC)) 4 = true ∧
      hasBytes State.reset.params (State.reset.ea (.disp 0 0x7FFC)) 2 = true ∧
      hasBytes State.reset.params (State.reset.ea (.disp 0 0x7FFF)) 1 = true := by decide
theorem witness_StoredWordReadNarrow :
    (blank [(2, 0x104)] (fl 0 0 0 0) 0).mem.wf = true ∧ (blank [(2, 0x104)] (fl 0 0 0 0) 0).params.byteOrder = .little ∧
      ((blank [(2, 0x104)] (fl 0 0 0 0) 0).ea (.base 2)).toNat % 4 = 0 ∧
      hasBytes (blank [(2, 0x104)] (fl 0 0 0 0) 0).params ((blank [(2, 0x104)] (fl 0 0 0 0) 0).ea (.base 2)) 4 = true := by decide
/-- A store over the instruction after the one that stores. -/
theorem witness_FetchSeesStore :
    State.reset.mem.wf = true ∧ (State.reset.ea (.disp 0 4)).toNat % 4 = 0 ∧ hasBytes State.reset.params (State.reset.ea (.disp 0 4)) 4 = true := by
  decide
/-- The last word, short and byte of the address space, and the last instruction. -/
theorem witness_AlignedAccessNeverWraps :
    loadsFrom (.lw 1 (.disp 0 0x7FFC)) State.reset = some (0xFFFFFFFC, 4) ∧ (0xFFFFFFFC : Word).toNat % 4 = 0 ∧
      storesTo (.sts (.disp 0 0x7FFE) 1) State.reset = some (0xFFFFFFFE, 2) ∧ (0xFFFFFFFE : Word).toNat % 2 = 0 ∧
      (∃ t, exec (.sts (.disp 0 0x7FFE) 1) State.reset = .next t) ∧
      loadsFrom (.lb 1 (.disp 0 0x7FFF)) State.reset = some (0xFFFFFFFF, 1) ∧ (0xFFFFFFFF : Word).toNat % 1 = 0 ∧
      (vec 0xFFFFFFFC [] (fl 0 0 0 0) 0x0000082E).pc.toNat % 4 = 0 := by
  refine ⟨by decide, by decide, by decide, by decide, ⟨_, rfl⟩, by decide, by decide, by decide⟩
/-- Two states with the same operands (5 and 7) that differ in another register, `pc`, memory and flags. -/
theorem witness_ComparisonsWriteOnlyEZS :
    (vec 0x400 [(1, 5), (2, 7), (3, 9)] (fl 0 1 1 0) 0x0000106F).reg 1 = (boot 0x800 [(1, 5), (2, 7)] (fl 1 0 0 1) [] []).reg 1 ∧
      (vec 0x400 [(1, 5), (2, 7), (3, 9)] (fl 0 1 1 0) 0x0000106F).op2 (.reg 2) = (boot 0x800 [(1, 5), (2, 7)] (fl 1 0 0 1) [] []).op2 (.reg 2) ∧
      (vec 0x400 [(1, 5), (2, 7), (3, 9)] (fl 0 1 1 0) 0x0000106F).op2u (.reg 2) = (boot 0x800 [(1, 5), (2, 7)] (fl 1 0 0 1) [] []).op2u (.reg 2) ∧
      (vec 0x400 [(1, 5), (2, 7), (3, 9)] (fl 0 1 1 0) 0x0000106F).params.cmpEZ = (boot 0x800 [(1, 5), (2, 7)] (fl 1 0 0 1) [] []).params.cmpEZ ∧
      (∃ t, exec (.cmp 1 (.reg 2)) (vec 0x400 [(1, 5), (2, 7), (3, 9)] (fl 0 1 1 0) 0x0000106F) = .next t) ∧
      (∃ t, exec (.cmp 1 (.reg 2)) (boot 0x800 [(1, 5), (2, 7)] (fl 1 0 0 1) [] []) = .next t) ∧
      (∃ t, exec (.cmpu 1 (.reg 2)) (vec 0x400 [(1, 5), (2, 7), (3, 9)] (fl 0 1 1 0) 0x0000106F) = .next t) ∧
      ∃ t, exec (.cmpu 1 (.reg 2)) (boot 0x800 [(1, 5), (2, 7)] (fl 1 0 0 1) [] []) = .next t := by
  refine ⟨by decide, by decide, by decide, by decide, ⟨_, rfl⟩, ⟨_, rfl⟩, ⟨_, rfl⟩, ⟨_, rfl⟩⟩
theorem witness_RegisterFrame :
    (∃ t, exec (.add 1 (.reg 2)) State.reset = .next t) ∧ destOf (.add 1 (.reg 2)) ≠ some 2 ∧ destOf (.stw (.base 2) 1) ≠ some 1 := by
  refine ⟨⟨_, rfl⟩, by decide, by decide⟩
theorem witness_OnlyListedRegistersAreRead :
    (31 : RegIdx) ∉ readsOf (fl 0 0 0 0) (.add 1 (.reg 2)) ∧ (1 : RegIdx) ∉ readsOf (fl 0 0 0 0) (.lw 1 (.base 2)) ∧
      (2 : RegIdx) ∉ readsOf (fl 0 0 0 0) (.be (.reg 2)) := by decide
theorem witness_FlagsTable : (∃ t, exec (.sub 1 (.imm 1)) State.reset = .next t) ∧ isBranch (.sub 1 (.imm 1)) = false := by
  refine ⟨⟨_, rfl⟩, by decide⟩
theorem witness_OnlyRelativeBranchesReadPc : isJump (.lw 1 (.base 2)) = false ∧ ∃ t, exec (.lw 1 (.base 2)) State.reset = .next t := by
  refine ⟨by decide, ⟨_, rfl⟩⟩
/-- A store of a short at 0xFFFFFFFE, and the bytes just below it and just after it, at 0. -/
theorem witness_MemoryFrame :
    (∃ t, exec (.sts (.disp 0 0x7FFE) 1) State.reset = .next t) ∧ storesTo (.sts (.disp 0 0x7FFE) 1) State.reset = some (0xFFFFFFFE, 2) ∧
      ¬ inBytes 0xFFFFFFFE 2 0xFFFFFFFD ∧ ¬ inBytes 0xFFFFFFFE 2 0 ∧ inBytes 0xFFFFFFFE 2 0xFFFFFFFF := by
  refine ⟨⟨_, rfl⟩, by decide, by unfold inBytes; decide, by unfold inBytes; decide, by unfold inBytes; decide⟩
theorem witness_OnlyLoadsAndStoresReachMemory :
    loadsFrom (.cmp 1 (.imm 0)) State.reset = none ∧ storesTo (.cmp 1 (.imm 0)) State.reset = none := by decide
/-- `j r5` to a misaligned address: the run is faulted after two steps. -/
theorem witness_FaultedRunStays :
    ∃ u, runSteps 2 (.running (vec 0x400 [(5, 0x1002)] (fl 0 0 0 0) 0x0000016E)) = .faulted u (.misalignedFetch 0x1002) := ⟨_, rfl⟩
/-- A run that is complete at once, and one after a step. -/
theorem witness_RunUntilFindsEnd :
    (∃ t, runUntil 0x400 0 (vec 0x400 [] (fl 0 0 0 0) 0x0000382E) = .running t ∧ t.pc = 0x400) ∧
      ∃ t, runUntil 0x410 1 (vec 0x400 [] (fl 0 0 0 0) 0x0000382E) = .running t ∧ t.pc = 0x410 := ⟨⟨_, rfl, rfl⟩, ⟨_, rfl, rfl⟩⟩
theorem witness_CompletionIsUnique :
    ∃ t, completesAt 0x410 1 (vec 0x400 [] (fl 0 0 0 0) 0x0000382E) t := by
  refine ⟨_, rfl, rfl, fun j hj u hu => ?_⟩
  obtain rfl : j = 0 := by omega
  cases hu
  decide

end Sys2Proof.Tests
end

section
/-! PROOFS. What a step is once its fetch has answered an instruction (00_scope.md R12). -/

namespace Sys2Proof.Machine

variable {s : State} {i : Instr}

theorem fetchInstr_eq_ok_of_decode (haligned : s.pc.toNat % 4 = 0) (hvalid : hasBytes s.params s.pc 4 = true)
    (hdecode : decode s.params.opMap (s.memRead s.pc 4) = .ok i) : fetchInstr s = .ok i := by
  have hword : fetchWord s = .ok (s.memRead s.pc 4) := fetchWord_ok_iff.mpr ⟨haligned, hvalid, rfl⟩
  exact fetchInstr_ok_iff.mpr ⟨_, hword, hdecode⟩

/-- The success branch of `step` as an equation between outcomes: `exec` may still complete or fault. -/
theorem step_eq_exec_of_fetchInstr (hfetch : fetchInstr s = .ok i) : step s = exec i s := by
  simp only [step, hfetch]

/-- Settles O13: the fetch answers the decoded instruction, and a step is `exec` of what the fetch answers. -/
theorem stepRunsDecodedInstruction : Obligations.StepRunsDecodedInstruction := by
  intro s i haligned hvalid hdecode
  exact step_eq_exec_of_fetchInstr (fetchInstr_eq_ok_of_decode haligned hvalid hdecode)

end Sys2Proof.Machine
end

section
/-! PROOFS. The forms an instruction's meaning takes, with its row of the tables of 10_state.md (R29, R33): the 33 instructions fall into six forms, and the
statements about all instructions are proved form by form. -/

namespace Sys2Proof.Machine

/-! ## Flags written through a mask (10_state.md R33) -/

/-- No flag. -/
def maskNone : Flags := { e := false, z := false, o := false, s := false }
/-- Z, S. -/
def maskZS : Flags := { e := false, z := true, o := false, s := true }
/-- Z, O, S. -/
def maskZOS : Flags := { e := false, z := true, o := true, s := true }
/-- E, Z, S. -/
def maskEZS : Flags := { e := true, z := true, o := false, s := true }

/-- Merging twice under one mask: the last flags kept are the ones that stay. -/
@[simp] theorem Flags.merge_merge (mask w f g : Flags) : Flags.merge mask (Flags.merge mask w f) g = Flags.merge mask w g := by
  obtain ⟨e, z, o, s⟩ := mask
  cases e <;> cases z <;> cases o <;> cases s <;> rfl

@[simp] theorem Flags.merge_maskNone (w f : Flags) : Flags.merge maskNone w f = f := rfl

theorem Flags.withZS_eq_merge (f : Flags) (r : Word) : f.withZS r = Flags.merge maskZS (maskNone.withZS r) f := rfl

theorem Flags.withZOS_eq_merge (f : Flags) (r : Word) (o : Bool) :
    f.withZOS r o = Flags.merge maskZOS (maskNone.withZOS r o) f := rfl

theorem Flags.compared_eq_merge (f : Flags) (rule : CmpEZ) (a b : Word) (lt : Bool) :
    f.compared rule a b lt = Flags.merge maskEZS (maskNone.compared rule a b lt) f := by
  cases rule <;> rfl

/-! ## Operands, and the state they are read from -/

/-- The second operand with its immediate extended by `extend`: `op2` under `sext`, `op2u` under `zext` (30_encoding.md R87). -/
def State.operand (s : State) (extend : BitVec 15 → Word) : Src → Word
  | .reg rB => s.reg rB
  | .imm i15 => extend i15

theorem State.op2_eq_operand (s : State) (src : Src) : s.op2 src = s.operand sext src := by
  cases src <;> rfl

theorem State.op2u_eq_operand (s : State) (src : Src) : s.op2u src = s.operand zext src := by
  cases src <;> rfl

section
variable {s s' : State}

theorem State.reg_congr (h : s'.regs = s.regs) (r : RegIdx) : s'.reg r = s.reg r := by
  simp only [State.reg, h]

theorem State.operand_congr (h : s'.regs = s.regs) (extend : BitVec 15 → Word) (src : Src) :
    s'.operand extend src = s.operand extend src := by
  cases src with
  | reg rB => exact State.reg_congr h rB
  | imm i15 => rfl

theorem State.ea_congr {target : Target} (h : s'.reg (baseOf target) = s.reg (baseOf target)) : s'.ea target = s.ea target := by
  cases target with
  | base rB => exact h
  | disp rB i15 => exact congrArg (· + sext i15) h

end

/-! ## The six forms -/

/-- The row of an instruction other than `j` and the branches in the tables of registers and flags (10_state.md R29, R33). -/
structure TableRow (i : Instr) (dest : Option RegIdx) (reads : List RegIdx) (mask : Flags) : Prop where
  dest_eq : destOf i = dest
  reads_eq : ∀ f, readsOf f i = reads
  flags_eq : flagsWritten i = mask
  not_jump : isJump i = false

/-- What the meaning of an instruction is made of. A computation or a comparison is a function of the parameters and its two operands; `dec`, `inc` and `not`
are computations with an immediate second operand. -/
inductive ExecForm (i : Instr) : Prop where
  | compute (rA : RegIdx) (src : Src) (mask : Flags) (value : Params → Word → Word → Word) (written : Params → Word → Word → Flags)
      (row : TableRow i (some rA) (rA :: regsOfSrc src) mask)
      (exec_eq : ∀ s, exec i s = .next (s.retire rA (value s.params (s.reg rA) (s.operand sext src))
        (Flags.merge mask (written s.params (s.reg rA) (s.operand sext src)) s.flags)))
  | compare (rA : RegIdx) (src : Src) (extend : BitVec 15 → Word) (written : Params → Word → Word → Flags)
      (row : TableRow i none (rA :: regsOfSrc src) maskEZS)
      (exec_eq : ∀ s, exec i s =
        .next (s.setFlags (Flags.merge maskEZS (written s.params (s.reg rA) (s.operand extend src)) s.flags)).advance)
  | jump (dst : JumpTo) (eq_j : i = .j dst)
  | branch (c : Test) (dst : BranchTo) (eq_branchOf : i = branchOf c dst)
  | load (n : Nat) (rA : RegIdx) (target : Target)
      (row : TableRow i (some rA) [baseOf target] maskZS)
      (loads : ∀ s, loadsFrom i s = some (s.ea target, n))
      (exec_eq : ∀ s, exec i s = loadCell n rA target s)
  | store (n : Nat) (target : Target) (rA : RegIdx)
      (row : TableRow i none [baseOf target, rA] maskNone)
      (stores : ∀ s, storesTo i s = some (s.ea target, n))
      (exec_eq : ∀ s, exec i s = storeCell n target rA s)

section
variable {i : Instr} {rA : RegIdx} {src : Src}

theorem ExecForm.ofArith (op : OverflowOp) (value : Word → Word → Word)
    (row : TableRow i (some rA) (rA :: regsOfSrc src) maskZOS)
    (exec_eq : ∀ s, exec i s = arithZOS op rA (s.reg rA) (s.op2 src) (value (s.reg rA) (s.op2 src)) s) : ExecForm i := by
  refine .compute rA src maskZOS (fun _ => value)
    (fun p a b => maskNone.withZOS (value a b) (overflow p.overflowRule op a b)) row fun s => ?_
  rw [exec_eq, arithZOS, Flags.withZOS_eq_merge, State.op2_eq_operand]

theorem ExecForm.ofBitwise (value : Params → Word → Word → Word)
    (row : TableRow i (some rA) (rA :: regsOfSrc src) maskZS)
    (exec_eq : ∀ s, exec i s = bitwiseZS rA (value s.params (s.reg rA) (s.op2 src)) s) : ExecForm i := by
  refine .compute rA src maskZS value (fun p a b => maskNone.withZS (value p a b)) row fun s => ?_
  rw [exec_eq, bitwiseZS, Flags.withZS_eq_merge, State.op2_eq_operand]

theorem ExecForm.ofCompare (extend : BitVec 15 → Word) (lt : Word → Word → Bool)
    (row : TableRow i none (rA :: regsOfSrc src) maskEZS)
    (exec_eq : ∀ s, exec i s =
      compareEZS (s.reg rA) (s.operand extend src) (lt (s.reg rA) (s.operand extend src)) s) : ExecForm i := by
  refine .compare rA src extend (fun p a b => maskNone.compared p.cmpEZ a b (lt a b)) row fun s => ?_
  rw [exec_eq, compareEZS, Flags.compared_eq_merge]

end

/-- Every instruction has one of the six forms. -/
theorem execForm : ∀ i : Instr, ExecForm i
  | .add _ _ => .ofArith .add (fun a b => a + b) ⟨rfl, fun _ => rfl, rfl, rfl⟩ fun _ => rfl
  | .dec _ => .ofArith (src := .imm 1) .dec (fun a b => a - b) ⟨rfl, fun _ => rfl, rfl, rfl⟩ fun _ => rfl
  | .inc _ => .ofArith (src := .imm 1) .inc (fun a b => a + b) ⟨rfl, fun _ => rfl, rfl, rfl⟩ fun _ => rfl
  | .mul _ _ => .ofArith .mul (fun a b => a * b) ⟨rfl, fun _ => rfl, rfl, rfl⟩ fun _ => rfl
  | .sub _ _ => .ofBitwise (fun _ a b => a - b) ⟨rfl, fun _ => rfl, rfl, rfl⟩ fun _ => rfl
  | .and _ _ => .ofBitwise (fun _ a b => a &&& b) ⟨rfl, fun _ => rfl, rfl, rfl⟩ fun _ => rfl
  | .not _ => .ofBitwise (src := .imm 0) (fun _ a _ => a ^^^ 0xFFFFFFFF) ⟨rfl, fun _ => rfl, rfl, rfl⟩ fun _ => rfl
  | .or _ _ => .ofBitwise (fun _ a b => a ||| b) ⟨rfl, fun _ => rfl, rfl, rfl⟩ fun _ => rfl
  | .shiftl _ _ => .ofBitwise (fun p a b => shiftLeft a (shiftAmount p.shiftOver b)) ⟨rfl, fun _ => rfl, rfl, rfl⟩ fun _ => rfl
  | .shiftr _ _ => .ofBitwise (fun p a b => shiftRight a (shiftAmount p.shiftOver b)) ⟨rfl, fun _ => rfl, rfl, rfl⟩ fun _ => rfl
  | .shiftrs _ _ =>
    .ofBitwise (fun p a b => shiftRightSigned a (shiftAmount p.shiftOver b)) ⟨rfl, fun _ => rfl, rfl, rfl⟩ fun _ => rfl
  | .xor _ _ => .ofBitwise (fun _ a b => a ^^^ b) ⟨rfl, fun _ => rfl, rfl, rfl⟩ fun _ => rfl
  | .j dst => .jump dst rfl
  | .be dst => .branch .e dst rfl
  | .bne dst => .branch .ne dst rfl
  | .bz dst => .branch .z dst rfl
  | .bnz dst => .branch .nz dst rfl
  | .bo dst => .branch .o dst rfl
  | .bno dst => .branch .no dst rfl
  | .bs dst => .branch .s dst rfl
  | .bns dst => .branch .ns dst rfl
  | .bl dst => .branch .l dst rfl
  | .bge dst => .branch .ge dst rfl
  | .bg dst => .branch .g dst rfl
  | .ble dst => .branch .le dst rfl
  | .cmp rA src =>
    .ofCompare sext (fun a b => a.toInt < b.toInt) ⟨rfl, fun _ => rfl, rfl, rfl⟩ fun s => by
      rw [← State.op2_eq_operand]; rfl
  | .cmpu rA src =>
    .ofCompare zext (fun a b => a.toNat < b.toNat) ⟨rfl, fun _ => rfl, rfl, rfl⟩ fun s => by
      rw [← State.op2u_eq_operand]; rfl
  | .lw rA target => .load 4 rA target ⟨rfl, fun _ => rfl, rfl, rfl⟩ (fun _ => rfl) fun _ => rfl
  | .ls rA target => .load 2 rA target ⟨rfl, fun _ => rfl, rfl, rfl⟩ (fun _ => rfl) fun _ => rfl
  | .lb rA target => .load 1 rA target ⟨rfl, fun _ => rfl, rfl, rfl⟩ (fun _ => rfl) fun _ => rfl
  | .stw target rA => .store 4 target rA ⟨rfl, fun _ => rfl, rfl, rfl⟩ (fun _ => rfl) fun _ => rfl
  | .sts target rA => .store 2 target rA ⟨rfl, fun _ => rfl, rfl, rfl⟩ (fun _ => rfl) fun _ => rfl
  | .stb target rA => .store 1 target rA ⟨rfl, fun _ => rfl, rfl, rfl⟩ (fun _ => rfl) fun _ => rfl

/-! ## The branches, by their test -/

theorem exec_j (dst : JumpTo) (s : State) : exec (.j dst) s = .next (s.goto (s.jumpTarget dst)) := rfl

theorem exec_branchOf (c : Test) (dst : BranchTo) (s : State) : exec (branchOf c dst) s = branchIf c dst s := by
  cases c <;> rfl

theorem readsOf_branchOf (c : Test) (dst : BranchTo) (f : Flags) :
    readsOf f (branchOf c dst) = regsOfBranch (testHolds c f) dst := by
  cases c <;> rfl

theorem destOf_branchOf (c : Test) (dst : BranchTo) : destOf (branchOf c dst) = none := by
  cases c <;> rfl

theorem flagsWritten_branchOf (c : Test) (dst : BranchTo) : flagsWritten (branchOf c dst) = maskNone := by
  cases c <;> rfl

theorem isBranch_branchOf (c : Test) (dst : BranchTo) : isBranch (branchOf c dst) = true := by
  cases c <;> rfl

theorem isJump_branchOf (c : Test) (dst : BranchTo) : isJump (branchOf c dst) = true := by
  cases c <;> rfl

/-! ## What a completed instruction has done -/

/-- The four states an instruction that completes can leave: a register and the flags written, the flags alone, `pc` alone, or memory written. -/
inductive Completion (i : Instr) (s : State) : State → Prop where
  | wroteRegister (rA : RegIdx) (v : Word) (w : Flags) (dest : destOf i = some rA) :
      Completion i s (s.retire rA v (Flags.merge (flagsWritten i) w s.flags))
  | compared (w : Flags) : Completion i s (s.setFlags (Flags.merge (flagsWritten i) w s.flags)).advance
  | went (a : Word) (jump : isJump i = true) (mask : flagsWritten i = maskNone) : Completion i s (s.goto a)
  | stored (a : Word) (n : Nat) (v : Word) (stores : storesTo i s = some (a, n)) (mask : flagsWritten i = maskNone) :
      Completion i s (s.memWrite a n v).advance

/-- Everything a completing instruction can do: the lemma the frame statements and the invariant rest on. -/
theorem exec_completion {i : Instr} {s t : State} (h : exec i s = .next t) : Completion i s t := by
  cases execForm i with
  | compute rA src mask value written row exec_eq =>
    rw [exec_eq, ← row.flags_eq] at h
    cases h
    exact .wroteRegister rA _ _ row.dest_eq
  | compare rA src extend written row exec_eq =>
    rw [exec_eq, ← row.flags_eq] at h
    cases h
    exact .compared _
  | jump dst eq_j =>
    subst eq_j
    cases h
    exact .went _ rfl rfl
  | branch c dst eq_branchOf =>
    subst eq_branchOf
    rw [exec_branchOf, branchIf_next_iff] at h
    obtain ⟨-, rfl⟩ | ⟨-, rfl⟩ := h
    · exact .went _ (isJump_branchOf c dst) (flagsWritten_branchOf c dst)
    · exact .went _ (isJump_branchOf c dst) (flagsWritten_branchOf c dst)
  | load n rA target row loads exec_eq =>
    rw [exec_eq, loadCell_next_iff, Flags.withZS_eq_merge, ← row.flags_eq] at h
    obtain ⟨-, rfl⟩ := h
    exact .wroteRegister rA _ _ row.dest_eq
  | store n target rA row stores exec_eq =>
    rw [exec_eq, storeCell_next_iff] at h
    obtain ⟨-, rfl⟩ := h
    exact .stored _ n _ (stores s) row.flags_eq

/-! ## The same load or store from a state that differs elsewhere -/

section
variable {n : Nat} {rA : RegIdx} {target : Target} {s s' : State} {g : State → State}

theorem loadCell_congr (hparams : s'.params = s.params) (hmem : s'.mem = s.mem) (hea : s'.ea target = s.ea target)
    (hretire : ∀ v, s'.retire rA v (s'.flags.withZS v) = g (s.retire rA v (s.flags.withZS v))) :
    loadCell n rA target s' = mapNext g (loadCell n rA target s) := by
  have hread : s'.memRead (s.ea target) n = s.memRead (s.ea target) n := by
    simp only [State.memRead, hparams, hmem]
  unfold loadCell raise
  rw [hparams, hea, hread]
  cases dataFault s.params .load (s.ea target) n with
  | some f => rfl
  | none => exact congrArg _ (hretire _)

theorem storeCell_congr (hparams : s'.params = s.params) (hea : s'.ea target = s.ea target) (hreg : s'.reg rA = s.reg rA)
    (hwrite : ∀ a v, (s'.memWrite a n v).advance = g (s.memWrite a n v).advance) :
    storeCell n target rA s' = mapNext g (storeCell n target rA s) := by
  unfold storeCell raise
  rw [hparams, hea, hreg]
  cases dataFault s.params .store (s.ea target) n with
  | some f => rfl
  | none => exact congrArg _ (hwrite _ _)

end

end Sys2Proof.Machine
end

section
/-! PROOFS. The invariant, the canonical form of memory, and reset (10_state.md R37, R40). -/

namespace Sys2Proof.Machine

variable {i : Instr} {s t : State}

theorem Completion.params_eq (h : Completion i s t) : t.params = s.params := by
  cases h <;> rfl

theorem Completion.mem_wf (h : Completion i s t) (hwf : s.mem.wf = true) : t.mem.wf = true := by
  cases h with
  | wroteRegister rA v w dest => exact hwf
  | compared w => exact hwf
  | went a jump mask => exact hwf
  | stored a n v stores mask => exact State.memWrite_wf a n v hwf

/-- Settles O18: a step that completes is an instruction that completes, and only a store touches memory. -/
theorem stepKeepsInvariant : Obligations.StepKeepsInvariant := by
  rintro s t hstep ⟨hmem, hparams⟩
  obtain ⟨i, -, hexec⟩ := step_next_iff.mp hstep
  have hc := exec_completion hexec
  exact ⟨⟨hc.mem_wf hmem, hc.params_eq ▸ hparams⟩, hc.params_eq⟩

theorem Memory.wfFrom_cons_iff {lo k : Nat} {b : Byte} {m : Memory} :
    Memory.wfFrom lo ((k, b) :: m) = true ↔ lo ≤ k ∧ k < 2 ^ 32 ∧ b ≠ unwrittenByte ∧ Memory.wfFrom (k + 1) m = true := by
  simp only [Memory.wfFrom, Bool.and_eq_true, decide_eq_true_eq, bne_iff_ne, and_assoc]

theorem Memory.readByte_cons_same (k : Nat) (b : Byte) (m : Memory) : Memory.readByte ((k, b) :: m) k = b := if_pos rfl

theorem Memory.readByte_cons_other {k a : Nat} (h : k ≠ a) (b : Byte) (m : Memory) :
    Memory.readByte ((k, b) :: m) a = Memory.readByte m a := if_neg h

/-- A canonical memory that reads as unwritten below `lo` lists nothing there. -/
theorem Memory.le_of_readByte_eq {lo k : Nat} {b : Byte} {m m' : Memory} (hm : Memory.wfFrom lo m' = true)
    (hb : b ≠ unwrittenByte) (h : Memory.readByte ((k, b) :: m) k = Memory.readByte m' k) : lo ≤ k := by
  by_contra hlt
  rw [Memory.readByte_cons_same, Memory.readByte_below (Nat.lt_of_not_le hlt) hm] at h
  exact hb h

/-- Canonical memories that read alike are equal: each one's lowest address is listed in the other, so the heads agree, and the tails read alike. -/
theorem Memory.eq_of_wfFrom : ∀ {m m' : Memory} {lo lo' : Nat}, Memory.wfFrom lo m = true → Memory.wfFrom lo' m' = true →
    (∀ a, a < 2 ^ 32 → Memory.readByte m a = Memory.readByte m' a) → m = m'
  | [], [], _, _, _, _, _ => rfl
  | [], (k', b') :: m', _, _, _, hm', hread => by
    obtain ⟨-, hk', hb', -⟩ := Memory.wfFrom_cons_iff.mp hm'
    have h := hread k' hk'
    rw [Memory.readByte_cons_same] at h
    exact absurd h.symm hb'
  | (k, b) :: m, [], _, _, hm, _, hread => by
    obtain ⟨-, hk, hb, -⟩ := Memory.wfFrom_cons_iff.mp hm
    have h := hread k hk
    rw [Memory.readByte_cons_same] at h
    exact absurd h hb
  | (k, b) :: m, (k', b') :: m', _, _, hm, hm', hread => by
    obtain ⟨-, hk, hb, hrest⟩ := Memory.wfFrom_cons_iff.mp hm
    obtain ⟨-, hk', hb', hrest'⟩ := Memory.wfFrom_cons_iff.mp hm'
    have hle : k' ≤ k :=
      Memory.le_of_readByte_eq (Memory.wfFrom_cons_iff.mpr ⟨le_rfl, hk', hb', hrest'⟩) hb (hread k hk)
    have hge : k ≤ k' :=
      Memory.le_of_readByte_eq (Memory.wfFrom_cons_iff.mpr ⟨le_rfl, hk, hb, hrest⟩) hb' (hread k' hk').symm
    obtain rfl : k = k' := Nat.le_antisymm hge hle
    have hbyte : b = b' := by simpa only [Memory.readByte_cons_same] using hread k hk
    have htail : m = m' := Memory.eq_of_wfFrom hrest hrest' fun a ha => by
      by_cases hka : k = a
      · have hlt : a < k + 1 := by omega
        rw [Memory.readByte_below hlt hrest, Memory.readByte_below hlt hrest']
      · simpa only [Memory.readByte_cons_other hka] using hread a ha
    rw [hbyte, htail]

/-- Settles O21. -/
theorem canonicalMemoryIsUnique : Obligations.CanonicalMemoryIsUnique := by
  intro m m' hm hm' hread
  refine Memory.eq_of_wfFrom hm hm' fun a ha => ?_
  have h := hread (BitVec.ofNat 32 a)
  rwa [BitVec.toNat_ofNat, Nat.mod_eq_of_lt ha] at h

theorem bootOk_iff {p : Params} {pc : Word} : bootOk p pc = true ↔ pc.toNat % 4 = 0 ∧ hasBytes p pc 4 = true := by
  simp only [bootOk, resetPcWf, Bool.and_eq_true, beq_iff_eq]

/-- Settles O20: what the first fetch needs is what `bootOk` checks, and it reads the image in the machine's byte order. -/
theorem resetFetchesLaunchImage : Obligations.ResetFetchesLaunchImage := by
  intro p resetPc regs f image w
  rw [fetchWord_ok_iff, bootOk_iff, and_assoc]
  rfl

end Sys2Proof.Machine
end

section
/-! PROOFS. What an instruction leaves unchanged (10_state.md R29, R33, R37): from the four states a completed instruction can leave. -/

namespace Sys2Proof.Machine

variable {i : Instr} {s t : State}

theorem Completion.reg_eq (h : Completion i s t) {r : RegIdx} (hr : destOf i ≠ some r) : t.reg r = s.reg r := by
  cases h with
  | wroteRegister rA v w dest =>
    have hne : r ≠ rA := fun e => hr (e ▸ dest)
    rw [State.retire_reg, State.reg_setReg_other s v hne]
  | compared w => rfl
  | went a jump mask => rfl
  | stored a n v stores mask => rfl

theorem Completion.flags_eq (h : Completion i s t) : t.flags = Flags.merge (flagsWritten i) t.flags s.flags := by
  cases h with
  | wroteRegister rA v w dest => exact (Flags.merge_merge _ _ _ _).symm
  | compared w => exact (Flags.merge_merge _ _ _ _).symm
  | went a jump mask => rw [mask]; rfl
  | stored a n v stores mask => rw [mask]; rfl

theorem Completion.pc_eq (h : Completion i s t) (hjump : isJump i = false) : t.pc = s.pc + 4 := by
  cases h with
  | wroteRegister rA v w dest => rfl
  | compared w => rfl
  | went a jump mask => exact absurd jump (by simp [hjump])
  | stored a n v stores mask => rfl

theorem State.byteAt_memWrite_outside {a x : Word} {n : Nat} (v : Word) (h : ¬ inBytes a n x) :
    (s.memWrite a n v).byteAt x = s.byteAt x := by
  rw [← cellBytes_length s.params.byteOrder n v] at h
  exact Memory.readByte_writeBytes_outside h

theorem Completion.byteAt_eq (h : Completion i s t) {x : Word} (hx : ∀ a n, storesTo i s = some (a, n) → ¬ inBytes a n x) :
    t.byteAt x = s.byteAt x := by
  cases h with
  | wroteRegister rA v w dest => rfl
  | compared w => rfl
  | went a jump mask => rfl
  | stored a n v stores mask => exact State.byteAt_memWrite_outside v (hx a n stores)

/-- Settles O48. -/
theorem registerFrame : Obligations.RegisterFrame := fun _ _ _ h =>
  ⟨fun _ hr => (exec_completion h).reg_eq hr, (exec_completion h).params_eq⟩

/-- Settles O52. -/
theorem memoryFrame : Obligations.MemoryFrame := fun _ _ _ h _ hx => (exec_completion h).byteAt_eq hx

end Sys2Proof.Machine
end

section
/-! PROOFS. What an instruction does not read (10_state.md R25, R29, R34, R37): each change of the state beforehand, followed through the six forms. -/

namespace Sys2Proof.Machine

variable {i : Instr} {s : State}

/-! ## A register changed beforehand -/

theorem State.setReg_setReg_same (s : State) (r : RegIdx) (v w : Word) : (s.setReg r v).setReg r w = s.setReg r w := by
  simp only [State.setReg, Vector.set_set]

theorem State.setReg_comm (s : State) {r q : RegIdx} (v w : Word) (h : r ≠ q) :
    (s.setReg r v).setReg q w = (s.setReg q w).setReg r v := by
  have hne : r.toNat ≠ q.toNat := fun e => h (BitVec.eq_of_toNat_eq e)
  simp only [State.setReg, Vector.set_comm _ _ hne]

theorem State.retire_setReg (s : State) (r rA : RegIdx) (v w : Word) (f : Flags) :
    (s.setReg r v).retire rA w f = if some rA = some r then s.retire rA w f else (s.retire rA w f).setReg r v := by
  by_cases h : r = rA
  · subst h
    rw [if_pos rfl, State.retire, State.setReg_setReg_same]
    rfl
  · rw [if_neg (by simpa using Ne.symm h), State.retire, State.setReg_comm s v w h]
    rfl

theorem State.operand_setReg {src : Src} {r : RegIdx} (h : r ∉ regsOfSrc src) (v : Word) (extend : BitVec 15 → Word) :
    (s.setReg r v).operand extend src = s.operand extend src := by
  cases src with
  | reg rB => exact State.reg_setReg_other s v (List.ne_of_not_mem_cons h).symm
  | imm i15 => rfl

theorem State.jumpTarget_setReg {dst : JumpTo} {r : RegIdx} {f : Flags} (h : r ∉ readsOf f (.j dst)) (v : Word) :
    (s.setReg r v).jumpTarget dst = s.jumpTarget dst := by
  cases dst with
  | reg q => exact State.reg_setReg_other s v (List.ne_of_not_mem_cons h).symm
  | rel i20 => rfl

theorem State.branchTarget_setReg {dst : BranchTo} {r : RegIdx} (h : r ∉ regsOfBranch true dst) (v : Word) :
    (s.setReg r v).branchTarget dst = s.branchTarget dst := by
  cases dst with
  | reg q => exact State.reg_setReg_other s v (List.ne_of_not_mem_cons h).symm
  | rel i16 => rfl

theorem branchIf_setReg {c : Test} {dst : BranchTo} {r : RegIdx} (h : r ∉ regsOfBranch (testHolds c s.flags) dst) (v : Word) :
    branchIf c dst (s.setReg r v) = mapNext (fun t => t.setReg r v) (branchIf c dst s) := by
  unfold branchIf
  rw [State.setReg_flags]
  cases htaken : testHolds c s.flags with
  | false => rfl
  | true =>
    rw [htaken] at h
    simp only [if_true, State.branchTarget_setReg h]
    rfl

/-- Settles O49: the operands of every form are read from the listed registers only. -/
theorem onlyListedRegistersAreRead : Obligations.OnlyListedRegistersAreRead := by
  intro i s r v hr
  cases execForm i with
  | compute rA src mask value written row exec_eq =>
    rw [row.reads_eq, List.mem_cons, not_or] at hr
    obtain ⟨hrA, hsrc⟩ := hr
    rw [exec_eq, exec_eq, State.reg_setReg_other s v (Ne.symm hrA), State.operand_setReg hsrc, row.dest_eq,
      State.retire_setReg]
    rfl
  | compare rA src extend written row exec_eq =>
    rw [row.reads_eq, List.mem_cons, not_or] at hr
    obtain ⟨hrA, hsrc⟩ := hr
    rw [exec_eq, exec_eq, State.reg_setReg_other s v (Ne.symm hrA), State.operand_setReg hsrc, row.dest_eq]
    rfl
  | jump dst eq_j =>
    subst eq_j
    rw [exec_j, exec_j, State.jumpTarget_setReg hr]
    rfl
  | branch c dst eq_branchOf =>
    subst eq_branchOf
    rw [readsOf_branchOf] at hr
    rw [exec_branchOf, exec_branchOf, destOf_branchOf, branchIf_setReg hr]
    rfl
  | load n rA target row loads exec_eq =>
    rw [row.reads_eq, List.mem_singleton] at hr
    rw [exec_eq, exec_eq, row.dest_eq]
    exact loadCell_congr rfl rfl (State.ea_congr (State.reg_setReg_other s v (Ne.symm hr)))
      fun w => State.retire_setReg s r rA v w _
  | store n target rA row stores exec_eq =>
    rw [row.reads_eq, List.mem_cons, List.mem_singleton, not_or] at hr
    obtain ⟨hbase, hrA⟩ := hr
    rw [exec_eq, exec_eq, row.dest_eq]
    exact storeCell_congr rfl (State.ea_congr (State.reg_setReg_other s v (Ne.symm hbase)))
      (State.reg_setReg_other s v (Ne.symm hrA)) fun _ _ => rfl

/-! ## The flags changed beforehand -/

/-- Every instruction but a branch writes its flags from something other than the flags. -/
theorem exec_setFlags (hbranch : isBranch i = false) (s : State) (f : Flags) :
    exec i (s.setFlags f) = mapNext (fun t => t.setFlags (Flags.merge (flagsWritten i) t.flags f)) (exec i s) := by
  cases execForm i with
  | compute rA src mask value written row exec_eq =>
    rw [exec_eq, exec_eq, row.flags_eq, State.operand_congr (State.setFlags_regs s f)]
    simp only [mapNext, State.retire_flags, Flags.merge_merge]
    rfl
  | compare rA src extend written row exec_eq =>
    rw [exec_eq, exec_eq, row.flags_eq, State.operand_congr (State.setFlags_regs s f)]
    simp only [mapNext, State.advance_flags, State.setFlags_flags, Flags.merge_merge]
    rfl
  | jump dst eq_j =>
    subst eq_j
    cases dst <;> rfl
  | branch c dst eq_branchOf =>
    subst eq_branchOf
    exact absurd (isBranch_branchOf c dst) (by simp [hbranch])
  | load n rA target row loads exec_eq =>
    rw [exec_eq, exec_eq, row.flags_eq]
    exact loadCell_congr rfl rfl (State.ea_congr rfl) fun _ => rfl
  | store n target rA row stores exec_eq =>
    rw [exec_eq, exec_eq, row.flags_eq]
    exact storeCell_congr rfl (State.ea_congr rfl) rfl fun _ _ => rfl

/-- Settles O50. -/
theorem flagsTable : Obligations.FlagsTable :=
  ⟨fun _ _ _ h => (exec_completion h).flags_eq, fun _ s f hbranch => exec_setFlags hbranch s f⟩

/-! ## `pc` changed beforehand -/

/-- Every instruction but `j` and the branches reads `pc` for the advance alone. -/
theorem exec_goto (hjump : isJump i = false) (s : State) (a : Word) :
    exec i (s.goto a) = mapNext (fun t => t.goto (a + 4)) (exec i s) := by
  cases execForm i with
  | compute rA src mask value written row exec_eq =>
    rw [exec_eq, exec_eq, State.operand_congr (State.goto_regs s a)]
    rfl
  | compare rA src extend written row exec_eq =>
    rw [exec_eq, exec_eq, State.operand_congr (State.goto_regs s a)]
    rfl
  | jump dst eq_j =>
    subst eq_j
    exact absurd hjump (by simp [isJump, operationOf])
  | branch c dst eq_branchOf =>
    subst eq_branchOf
    exact absurd (isJump_branchOf c dst) (by simp [hjump])
  | load n rA target row loads exec_eq =>
    rw [exec_eq, exec_eq]
    exact loadCell_congr rfl rfl (State.ea_congr rfl) fun _ => rfl
  | store n target rA row stores exec_eq =>
    rw [exec_eq, exec_eq]
    exact storeCell_congr rfl (State.ea_congr rfl) rfl fun _ _ => rfl

/-- A register-form branch reads `pc` only when it is not taken, to advance. -/
theorem exec_branchOf_reg_goto (c : Test) (r : RegIdx) (s : State) (a : Word) :
    exec (branchOf c (.reg r)) (s.goto a) =
      if testHolds c s.flags then exec (branchOf c (.reg r)) s else .next (s.goto (a + 4)) := by
  rw [exec_branchOf, exec_branchOf, branchIf, branchIf, State.goto_flags]
  cases testHolds c s.flags <;> rfl

/-- Settles O51. -/
theorem onlyRelativeBranchesReadPc : Obligations.OnlyRelativeBranchesReadPc := by
  refine ⟨fun s w hfetch => ?_, fun _ _ _ _ => ⟨rfl, rfl⟩, fun i s hjump => ⟨fun t h => ?_, exec_goto hjump s⟩,
    fun s r a => ⟨rfl, fun c => exec_branchOf_reg_goto c r s a⟩⟩
  · obtain ⟨-, -, hw⟩ := fetchWord_ok_iff.mp hfetch
    exact hw
  · exact (exec_completion h).pc_eq hjump

/-! ## Memory changed beforehand -/

/-- Settles O53: the forms that neither load nor store are made of registers, flags, `pc` and parameters. -/
theorem onlyLoadsAndStoresReachMemory : Obligations.OnlyLoadsAndStoresReachMemory := by
  intro i s m hload hstore
  cases execForm i with
  | compute rA src mask value written row exec_eq =>
    rw [exec_eq, exec_eq, State.operand_congr (s := s) rfl]
    rfl
  | compare rA src extend written row exec_eq =>
    rw [exec_eq, exec_eq, State.operand_congr (s := s) rfl]
    rfl
  | jump dst eq_j =>
    subst eq_j
    cases dst <;> rfl
  | branch c dst eq_branchOf =>
    subst eq_branchOf
    rw [exec_branchOf, exec_branchOf, branchIf, branchIf]
    cases testHolds c s.flags <;> cases dst <;> rfl
  | load n rA target row loads exec_eq =>
    exact absurd (loads s) (by simp [hload])
  | store n target rA row stores exec_eq =>
    exact absurd (stores s) (by simp [hstore])

end Sys2Proof.Machine
end

section
/-! PROOFS. The bytes of a cell in memory (20_memory.md R50, R51): which bytes MemRead puts together, which MemWrite leaves, and a part of a stored cell. -/

namespace Sys2Proof.Machine

variable {s : State} {a : Word} {n : Nat} {v : Word}

/-! ## Reading: the bytes one after the other, and their weights -/

theorem Memory.readBytes_eq_map (m : Memory) :
    ∀ (n : Nat) (a : Word), m.readBytes a n = (List.range n).map fun k => m.readByte (a + BitVec.ofNat 32 k).toNat
  | 0, _ => rfl
  | n + 1, a => by
    have hshift (k : Nat) : a + 1 + BitVec.ofNat 32 k = a + BitVec.ofNat 32 (k + 1) := by bv_omega
    rw [Memory.readBytes, Memory.readBytes_eq_map m n, List.range_succ_eq_map, List.map_cons, List.map_map]
    simp only [hshift, BitVec.add_zero, Function.comp_def, Nat.succ_eq_add_one]

theorem State.readBytes_eq_map (s : State) (a : Word) (n : Nat) :
    s.mem.readBytes a n = (List.range n).map fun k => s.byteAt (a + BitVec.ofNat 32 k) :=
  Memory.readBytes_eq_map s.mem n a

theorem leValue_lt : ∀ bs : List Byte, leValue bs < 2 ^ (8 * bs.length)
  | [] => Nat.one_pos
  | b :: bs => by
    have hb := b.isLt
    have ih := leValue_lt bs
    rw [List.length_cons, Nat.mul_succ, pow_add, leValue]
    omega

/-- Up to four bytes fill a word without loss. -/
theorem toNat_ofNat_leValue {bs : List Byte} (h : bs.length ≤ 4) : (BitVec.ofNat 32 (leValue bs)).toNat = leValue bs := by
  have hle : 2 ^ (8 * bs.length) ≤ 2 ^ 32 := Nat.pow_le_pow_right two_pos (by omega)
  exact Nat.mod_eq_of_lt ((leValue_lt bs).trans_le hle)

theorem State.memRead_toNat_little (horder : s.params.byteOrder = .little) (hn : n ≤ 4) :
    (s.memRead a n).toNat = leValue (s.mem.readBytes a n) := by
  rw [State.memRead, horder]
  exact toNat_ofNat_leValue (by simpa using hn)

theorem State.memRead_toNat_big (horder : s.params.byteOrder = .big) (hn : n ≤ 4) :
    (s.memRead a n).toNat = leValue (s.mem.readBytes a n).reverse := by
  rw [State.memRead, horder]
  exact toNat_ofNat_leValue (by simpa using hn)

/-- One byte has no order. -/
theorem State.memRead_one (s : State) (a : Word) : s.memRead a 1 = (s.byteAt a).setWidth 32 := by
  have hbyte : leValue [s.byteAt a] = (s.byteAt a).toNat := rfl
  have hread : s.mem.readBytes a 1 = [s.byteAt a] := rfl
  rw [State.memRead, hread]
  cases s.params.byteOrder <;> exact BitVec.eq_of_toNat_eq (by simp [cellValue, hbyte])

/-- Settles O43: the bytes of the cell, listed from `a` on, weighted from the end the byte order names. -/
theorem memReadAssemblesBytes : Obligations.MemReadAssemblesBytes := by
  intro s a
  have htwo : s.mem.readBytes a 2 = [s.byteAt a, s.byteAt (a + 1)] := rfl
  have hfour : s.mem.readBytes a 4 = [s.byteAt a, s.byteAt (a + 1), s.byteAt (a + 2), s.byteAt (a + 3)] := by
    simp [State.readBytes_eq_map, List.range_succ]
  refine ⟨?one, fun hlittle => ?little, fun hbig => ?big⟩
  case one => rw [State.memRead_one, BitVec.toNat_setWidth]; omega
  case little =>
    rw [State.memRead_toNat_little hlittle (by decide), State.memRead_toNat_little hlittle (by decide), htwo, hfour]
    simp only [leValue]
    omega
  case big =>
    rw [State.memRead_toNat_big hbig (by decide), State.memRead_toNat_big hbig (by decide), htwo, hfour]
    simp only [List.reverse_cons, List.reverse_nil, List.nil_append, List.cons_append, leValue]
    omega

/-! ## Writing: each byte of the cell, and a part of the cell read back -/

theorem leBytes_eq_map : ∀ n v : Nat, leBytes n v = (List.range n).map fun i => BitVec.ofNat 8 (v / 2 ^ (8 * i))
  | 0, _ => rfl
  | n + 1, v => by
    have hshift (i : Nat) : v / 2 ^ 8 / 2 ^ (8 * i) = v / 2 ^ (8 * (i + 1)) := by
      rw [Nat.div_div_eq_div_mul, ← pow_add, Nat.mul_succ, Nat.add_comm]
    rw [leBytes, leBytes_eq_map n, List.range_succ_eq_map, List.map_cons, List.map_map]
    simp [Function.comp_def, ← hshift]

theorem cellBytes_getElem (order : ByteOrder) (v : Word) {i : Nat} (hi : i < (cellBytes order n v).length) :
    (cellBytes order n v)[i] = storedByte order n v i := by
  cases order <;>
    simp [cellBytes, storedByte, leBytes_eq_map, BitVec.extractLsb', Nat.shiftRight_eq_div_pow]

/-- What the bytes of a cell read as after MemWrite, beside `State.byteAt_memWrite_outside`. -/
theorem State.byteAt_memWrite_inside (hm : s.mem.wf = true) (hn : n ≤ 2 ^ 32) {i : Nat} (hi : i < n) :
    (s.memWrite a n v).byteAt (a + BitVec.ofNat 32 i) = storedByte s.params.byteOrder n v i := by
  have hread := Memory.readBytes_writeBytes_same (bs := cellBytes s.params.byteOrder n v) (addr := a) hm (by simpa using hn)
  rw [cellBytes_length, ← State.memWrite_mem, State.readBytes_eq_map] at hread
  have hbyte := List.getElem_of_eq hread (i := i) (by simpa using hi)
  rwa [List.getElem_map, List.getElem_range, cellBytes_getElem] at hbyte

/-- Under `little` a part of a stored cell, `k` bytes in and `l` bytes long, reads as the bits of the value from bit `8 * k` on. -/
theorem State.memRead_memWrite_part (hm : s.mem.wf = true) (hlittle : s.params.byteOrder = .little) {k l : Nat}
    (hpart : k + l ≤ n) (hn : n ≤ 4) :
    ((s.memWrite a n v).memRead (a + BitVec.ofNat 32 k) l).toNat = v.toNat / 2 ^ (8 * k) % 2 ^ (8 * l) := by
  have hbyte (j : Nat) (hj : j < l) : (s.memWrite a n v).byteAt (a + BitVec.ofNat 32 k + BitVec.ofNat 32 j) =
      BitVec.ofNat 8 (v.toNat / 2 ^ (8 * k) / 2 ^ (8 * j)) := by
    rw [BitVec.add_assoc, ← BitVec.ofNat_add, State.byteAt_memWrite_inside hm (by omega) (by omega), hlittle,
      Nat.div_div_eq_div_mul, ← pow_add, ← Nat.mul_add]
    simp [storedByte, BitVec.extractLsb', Nat.shiftRight_eq_div_pow]
  have hbytes : (s.memWrite a n v).mem.readBytes (a + BitVec.ofNat 32 k) l = leBytes l (v.toNat / 2 ^ (8 * k)) := by
    rw [State.readBytes_eq_map, leBytes_eq_map]
    exact List.map_congr_left fun j hj => hbyte j (List.mem_range.mp hj)
  rw [State.memRead_toNat_little (s := s.memWrite a n v) hlittle (by omega), hbytes, leValue_leBytes]

end Sys2Proof.Machine
end

section
/-! PROOFS. What follows a store: a load, a narrower read and a fetch of the bytes it wrote (20_memory.md R51, R55, R60, R63). -/

namespace Sys2Proof.Machine

variable {s : State} {rA : RegIdx} {tg : Target} {n : Nat}

/-- A store that passes its checks completes with its cell written. -/
theorem storeCell_eq_next (haligned : (s.ea tg).toNat % n = 0) (hvalid : hasBytes s.params (s.ea tg) n = true) :
    storeCell n tg rA s = .next (s.memWrite (s.ea tg) n (s.reg rA)).advance :=
  storeCell_next_iff.mpr ⟨⟨haligned, hvalid⟩, rfl⟩

/-- The store leaves registers and parameters, so the load reaches the same cell under the same checks. -/
theorem loadCell_after_storeCell (rD : RegIdx) (hm : s.mem.wf = true) (haligned : (s.ea tg).toNat % n = 0)
    (hvalid : hasBytes s.params (s.ea tg) n = true) (hn : n ≤ 4) :
    ∃ t u, storeCell n tg rA s = .next t ∧ loadCell n rD tg t = .next u ∧
      (u.reg rD).toNat = (s.reg rA).toNat % 2 ^ (8 * n) := by
  have hea : (s.memWrite (s.ea tg) n (s.reg rA)).advance.ea tg = s.ea tg := State.ea_congr rfl
  refine ⟨_, _, storeCell_eq_next haligned hvalid, loadCell_next_iff.mpr ⟨?_, rfl⟩, ?_⟩
  · rw [hea]
    exact ⟨haligned, hvalid⟩
  · have hread : (s.memWrite (s.ea tg) n (s.reg rA)).advance.memRead (s.ea tg) n =
        BitVec.ofNat 32 ((s.reg rA).toNat % 2 ^ (8 * n)) := State.memRead_memWrite_same hm (by omega)
    have hlt : (s.reg rA).toNat % 2 ^ (8 * n) < 2 ^ 32 := (Nat.mod_le _ _).trans_lt (s.reg rA).isLt
    rw [State.retire_reg, State.reg_setReg_same, hea, hread, BitVec.toNat_ofNat, Nat.mod_eq_of_lt hlt]

/-- Settles O44: the three widths of one fact about a store and the load after it. -/
theorem loadAfterStore : Obligations.LoadAfterStore := by
  intro rA rD tg s hm
  refine ⟨fun haligned hvalid => ?word, fun haligned hvalid => ?short, fun hvalid => ?byte⟩
  case word =>
    obtain ⟨t, u, hstore, hload, hreg⟩ := loadCell_after_storeCell (rA := rA) rD hm haligned hvalid (by decide)
    exact ⟨t, u, hstore, hload, BitVec.eq_of_toNat_eq (hreg.trans (Nat.mod_eq_of_lt (s.reg rA).isLt))⟩
  case short => exact loadCell_after_storeCell rD hm haligned hvalid (by decide)
  case byte => exact loadCell_after_storeCell rD hm (Nat.mod_one _) hvalid (by decide)

/-- Settles O45: the bytes and the halves are parts of the stored cell. -/
theorem storedWordReadNarrow : Obligations.StoredWordReadNarrow := by
  intro rA tg s hm hlittle haligned hvalid
  have hpart {k l : Nat} (h : k + l ≤ 4) :
      ((s.memWrite (s.ea tg) 4 (s.reg rA)).advance.memRead (s.ea tg + BitVec.ofNat 32 k) l).toNat =
        (s.reg rA).toNat / 2 ^ (8 * k) % 2 ^ (8 * l) :=
    State.memRead_memWrite_part hm hlittle h le_rfl
  refine ⟨_, storeCell_eq_next haligned hvalid, fun i hi => ?byte, ?lower, ?upper⟩
  case byte => exact hpart (by omega)
  case lower => simpa using hpart (k := 0) (l := 2) (by decide)
  case upper =>
    have hlt : (s.reg rA).toNat / 2 ^ 16 < 2 ^ 16 := by omega
    exact (hpart (k := 2) (l := 2) (by decide)).trans (Nat.mod_eq_of_lt hlt)

/-- Settles O46: the fetch checks and reads the cell that the store checked and wrote. -/
theorem fetchSeesStore : Obligations.FetchSeesStore := by
  intro rA tg s hm haligned hvalid
  refine ⟨_, storeCell_eq_next haligned hvalid, fetchWord_ok_iff.mpr ⟨haligned, hvalid, ?_⟩⟩
  have hread : (s.memWrite (s.ea tg) 4 (s.reg rA)).memRead (s.ea tg) 4 = s.reg rA := by
    rw [State.memRead_memWrite_same hm (by decide), Nat.mod_eq_of_lt (s.reg rA).isLt, BitVec.ofNat_toNat, BitVec.setWidth_eq]
  exact hread.symm

end Sys2Proof.Machine
end

section
/-! PROOFS. An aligned access stays below the wrap point, so that its bytes are an interval of plain addresses (20_memory.md R57). -/

namespace Sys2Proof.Machine

variable {i : Instr} {s t : State} {ea x : Word} {n : Nat}

/-! ## The bytes an instruction reaches -/

theorem loadsFrom_size (h : loadsFrom i s = some (ea, n)) : n ∣ 4 := by
  unfold loadsFrom at h
  split at h <;> cases h <;> decide

theorem storesTo_size (h : storesTo i s = some (ea, n)) : n ∣ 4 := by
  unfold storesTo at h
  split at h <;> cases h <;> decide

theorem storesTo_eq_none_of_loadsFrom {cell : Word × Nat} (h : loadsFrom i s = some cell) : storesTo i s = none := by
  unfold loadsFrom at h
  split at h
  · rfl
  · rfl
  · rfl
  · cases h

/-- A completed load or store changes no byte outside the cell it reaches. -/
theorem inBytes_of_byteAt_ne (haccess : loadsFrom i s = some (ea, n) ∨ storesTo i s = some (ea, n)) (hexec : exec i s = .next t)
    (hne : t.byteAt x ≠ s.byteAt x) : inBytes ea n x := by
  by_contra hout
  refine hne ((exec_completion hexec).byteAt_eq fun a m hstores => ?_)
  rcases haccess with hload | hstore
  · rw [storesTo_eq_none_of_loadsFrom hload] at hstores
    cases hstores
  · rw [hstore] at hstores
    cases hstores
    exact hout

/-! ## Bytes modulo 2^32 and plain addresses -/

/-- The size of an access divides 2^32, so the last multiple of it has room for the whole access. -/
theorem add_size_le_of_aligned (hsize : n ∣ 4) (haligned : ea.toNat % n = 0) : ea.toNat + n ≤ 2 ^ 32 := by
  have hspace : 2 ^ 32 % n = 0 := Nat.mod_eq_zero_of_dvd (hsize.trans (by decide))
  exact Nat.ModEq.add_le_of_lt (haligned.trans hspace.symm) ea.isLt

theorem inBytes_iff_of_noWrap (hfits : ea.toNat + n ≤ 2 ^ 32) :
    inBytes ea n x ↔ ea.toNat ≤ x.toNat ∧ x.toNat < ea.toNat + n := by
  unfold inBytes
  bv_omega

theorem inBytes_succ_iff (hn : n < 2 ^ 32) : inBytes ea (n + 1) x ↔ x = ea ∨ inBytes (ea + 1) n x := by
  unfold inBytes
  bv_omega

theorem hasBytes_iff {p : Params} : ∀ {n : Nat} {ea : Word}, n ≤ 2 ^ 32 →
    (hasBytes p ea n = true ↔ ∀ x, inBytes ea n x → hasByte p x = true)
  | 0, _, _ => by simp [hasBytes, inBytes]
  | n + 1, ea, hn => by
    simp only [hasBytes, Bool.and_eq_true, hasBytes_iff (Nat.le_of_succ_le hn), inBytes_succ_iff hn, forall_eq_or_imp]

theorem Memory.readBytes_of_noWrap (m : Memory) (hfits : ea.toNat + n ≤ 2 ^ 32) :
    m.readBytes ea n = (List.range n).map fun k => m.readByte (ea.toNat + k) := by
  rw [Memory.readBytes_eq_map]
  refine List.map_congr_left fun k hk => ?_
  have hlt := List.mem_range.mp hk
  have haddr : (ea + BitVec.ofNat 32 k).toNat = ea.toNat + k := by
    rw [BitVec.toNat_add, BitVec.toNat_ofNat]
    omega
  rw [haddr]

/-- Settles O47: every size divides 2^32, so an aligned access does not wrap; the rest is about accesses that do not wrap. -/
theorem alignedAccessNeverWraps : Obligations.AlignedAccessNeverWraps := by
  constructor
  · intro i s ea n haccess haligned
    have hfits : ea.toNat + n ≤ 2 ^ 32 := add_size_le_of_aligned (haccess.elim loadsFrom_size storesTo_size) haligned
    refine ⟨hfits, fun x => inBytes_iff_of_noWrap hfits, ?valid, s.mem.readBytes_of_noWrap hfits, ?written⟩
    case valid => simp only [hasBytes_iff (Nat.le_of_add_left_le hfits), inBytes_iff_of_noWrap hfits, and_imp]
    case written =>
      intro t hexec x hne
      exact (inBytes_iff_of_noWrap hfits).mp (inBytes_of_byteAt_ne haccess hexec hne)
  · intro s haligned
    have hfits : s.pc.toNat + 4 ≤ 2 ^ 32 := add_size_le_of_aligned dvd_rfl haligned
    exact ⟨hfits, s.mem.readBytes_of_noWrap hfits⟩

end Sys2Proof.Machine
end

section
/-! PROOFS. The layout of the five formats (30_encoding.md R81 to R85): a word is the sum of its fields at their places, so fields and word determine
each other. -/

namespace Sys2Proof

/-! ## Fields cut out of a word, and fields put into one -/

theorem toNat_extractLsb' (w : Word) (lo n : Nat) : (w.extractLsb' lo n).toNat = w.toNat / 2 ^ lo % 2 ^ n := by
  rw [BitVec.extractLsb'_toNat, Nat.shiftRight_eq_div_pow]

theorem toNat_placed {n : Nat} (v : BitVec n) {lo : Nat} (hfits : lo + n ≤ 32) : (placed v lo).toNat = v.toNat * 2 ^ lo := by
  have hv : v.toNat < 2 ^ n := v.isLt
  have hn : 2 ^ n ≤ 2 ^ 32 := Nat.pow_le_pow_right two_pos (by omega)
  have hlt : v.toNat * 2 ^ lo < 2 ^ 32 := calc
    v.toNat * 2 ^ lo < 2 ^ n * 2 ^ lo := Nat.mul_lt_mul_of_pos_right hv (Nat.two_pow_pos lo)
    _ = 2 ^ (lo + n) := by rw [pow_add, Nat.mul_comm]
    _ ≤ 2 ^ 32 := Nat.pow_le_pow_right two_pos hfits
  rw [placed, BitVec.toNat_shiftLeft, BitVec.toNat_setWidth, Nat.mod_eq_of_lt (hv.trans_le hn), Nat.shiftLeft_eq,
    Nat.mod_eq_of_lt hlt]

/-- A field put below the fields already there adds its value at its place. -/
theorem toNat_or_placed {a : Word} {q n : Nat} {v : BitVec n} {lo : Nat} (hfits : lo + n ≤ 32)
    (ha : a.toNat = q * 2 ^ (lo + n)) : (a ||| placed v lo).toNat = (q * 2 ^ n + v.toNat) * 2 ^ lo := by
  have hlt : v.toNat * 2 ^ lo < 2 ^ (lo + n) := by
    rw [pow_add, Nat.mul_comm]
    exact Nat.mul_lt_mul_of_pos_left v.isLt (Nat.two_pow_pos lo)
  rw [BitVec.toNat_or, toNat_placed v hfits, ha, Nat.mul_comm q, ← Nat.two_pow_add_eq_or_of_lt hlt]
  ring

/-! ## Unpacking: a word is the sum of its fields -/

theorem toNat_eq_unpackR (w : Word) :
    w.toNat = (unpackR w).i15.toNat * 2 ^ 17 + (unpackR w).I.toNat * 2 ^ 16 + (unpackR w).rB.toNat * 2 ^ 11 +
      (unpackR w).rA.toNat * 2 ^ 6 + (unpackR w).op.toNat := by
  simp only [unpackR, opField, toNat_extractLsb']
  omega

theorem toNat_eq_unpackC (w : Word) :
    w.toNat = (unpackC w).i16.toNat * 2 ^ 16 + (unpackC w).I.toNat * 2 ^ 15 + (unpackC w).V.toNat * 2 ^ 14 +
      (unpackC w).F.toNat * 2 ^ 11 + (unpackC w).r.toNat * 2 ^ 6 + (unpackC w).op.toNat := by
  simp only [unpackC, opField, toNat_extractLsb']
  omega

theorem toNat_eq_unpackS (w : Word) :
    w.toNat = (unpackS w).i12.toNat * 2 ^ 20 + (unpackS w).V.toNat * 2 ^ 19 + (unpackS w).F.toNat * 2 ^ 16 +
      (unpackS w).rB.toNat * 2 ^ 11 + (unpackS w).rA.toNat * 2 ^ 6 + (unpackS w).op.toNat := by
  simp only [unpackS, opField, toNat_extractLsb']
  omega

theorem toNat_eq_unpackI (w : Word) :
    w.toNat = (unpackI w).i20.toNat * 2 ^ 12 + (unpackI w).I.toNat * 2 ^ 11 + (unpackI w).r.toNat * 2 ^ 6 +
      (unpackI w).op.toNat := by
  simp only [unpackI, opField, toNat_extractLsb']
  omega

theorem toNat_eq_unpackA (w : Word) :
    w.toNat = (unpackA w).unused.toNat * 2 ^ 21 + (unpackA w).rC.toNat * 2 ^ 16 + (unpackA w).rB.toNat * 2 ^ 11 +
      (unpackA w).rA.toNat * 2 ^ 6 + (unpackA w).op.toNat := by
  simp only [unpackA, opField, toNat_extractLsb']
  omega

/-! ## Packing: the fields one below the other -/

theorem toNat_packR (f : RFields) :
    (packR f).toNat = f.i15.toNat * 2 ^ 17 + f.I.toNat * 2 ^ 16 + f.rB.toNat * 2 ^ 11 + f.rA.toNat * 2 ^ 6 + f.op.toNat := by
  have hi15 := toNat_placed f.i15 (lo := 17) (by decide)
  have hI := toNat_or_placed (v := f.I) (lo := 16) (by decide) hi15
  have hrB := toNat_or_placed (v := f.rB) (lo := 11) (by decide) hI
  have hrA := toNat_or_placed (v := f.rA) (lo := 6) (by decide) hrB
  have hop := toNat_or_placed (v := f.op) (lo := 0) (by decide) hrA
  rw [packR, hop]
  ring

theorem toNat_packC (f : CFields) :
    (packC f).toNat = f.i16.toNat * 2 ^ 16 + f.I.toNat * 2 ^ 15 + f.V.toNat * 2 ^ 14 + f.F.toNat * 2 ^ 11 +
      f.r.toNat * 2 ^ 6 + f.op.toNat := by
  have hi16 := toNat_placed f.i16 (lo := 16) (by decide)
  have hI := toNat_or_placed (v := f.I) (lo := 15) (by decide) hi16
  have hV := toNat_or_placed (v := f.V) (lo := 14) (by decide) hI
  have hF := toNat_or_placed (v := f.F) (lo := 11) (by decide) hV
  have hr := toNat_or_placed (v := f.r) (lo := 6) (by decide) hF
  have hop := toNat_or_placed (v := f.op) (lo := 0) (by decide) hr
  rw [packC, hop]
  ring

theorem toNat_packS (f : SFields) :
    (packS f).toNat = f.i12.toNat * 2 ^ 20 + f.V.toNat * 2 ^ 19 + f.F.toNat * 2 ^ 16 + f.rB.toNat * 2 ^ 11 +
      f.rA.toNat * 2 ^ 6 + f.op.toNat := by
  have hi12 := toNat_placed f.i12 (lo := 20) (by decide)
  have hV := toNat_or_placed (v := f.V) (lo := 19) (by decide) hi12
  have hF := toNat_or_placed (v := f.F) (lo := 16) (by decide) hV
  have hrB := toNat_or_placed (v := f.rB) (lo := 11) (by decide) hF
  have hrA := toNat_or_placed (v := f.rA) (lo := 6) (by decide) hrB
  have hop := toNat_or_placed (v := f.op) (lo := 0) (by decide) hrA
  rw [packS, hop]
  ring

theorem toNat_packI (f : IFields) :
    (packI f).toNat = f.i20.toNat * 2 ^ 12 + f.I.toNat * 2 ^ 11 + f.r.toNat * 2 ^ 6 + f.op.toNat := by
  have hi20 := toNat_placed f.i20 (lo := 12) (by decide)
  have hI := toNat_or_placed (v := f.I) (lo := 11) (by decide) hi20
  have hr := toNat_or_placed (v := f.r) (lo := 6) (by decide) hI
  have hop := toNat_or_placed (v := f.op) (lo := 0) (by decide) hr
  rw [packI, hop]
  ring

theorem toNat_packA (f : AFields) :
    (packA f).toNat = f.unused.toNat * 2 ^ 21 + f.rC.toNat * 2 ^ 16 + f.rB.toNat * 2 ^ 11 + f.rA.toNat * 2 ^ 6 + f.op.toNat := by
  have hunused := toNat_placed f.unused (lo := 21) (by decide)
  have hrC := toNat_or_placed (v := f.rC) (lo := 16) (by decide) hunused
  have hrB := toNat_or_placed (v := f.rB) (lo := 11) (by decide) hrC
  have hrA := toNat_or_placed (v := f.rA) (lo := 6) (by decide) hrB
  have hop := toNat_or_placed (v := f.op) (lo := 0) (by decide) hrA
  rw [packA, hop]
  ring

/-! ## Fields and word determine each other -/

@[simp] theorem packR_unpackR (w : Word) : packR (unpackR w) = w :=
  BitVec.eq_of_toNat_eq ((toNat_packR _).trans (toNat_eq_unpackR w).symm)

@[simp] theorem packC_unpackC (w : Word) : packC (unpackC w) = w :=
  BitVec.eq_of_toNat_eq ((toNat_packC _).trans (toNat_eq_unpackC w).symm)

@[simp] theorem packS_unpackS (w : Word) : packS (unpackS w) = w :=
  BitVec.eq_of_toNat_eq ((toNat_packS _).trans (toNat_eq_unpackS w).symm)

@[simp] theorem packI_unpackI (w : Word) : packI (unpackI w) = w :=
  BitVec.eq_of_toNat_eq ((toNat_packI _).trans (toNat_eq_unpackI w).symm)

@[simp] theorem packA_unpackA (w : Word) : packA (unpackA w) = w :=
  BitVec.eq_of_toNat_eq ((toNat_packA _).trans (toNat_eq_unpackA w).symm)

@[simp] theorem unpackR_packR (f : RFields) : unpackR (packR f) = f := by
  obtain ⟨i15, I, rB, rA, op⟩ := f
  simp only [unpackR, opField, RFields.mk.injEq, BitVec.toNat_eq, toNat_extractLsb', toNat_packR]
  omega

@[simp] theorem unpackC_packC (f : CFields) : unpackC (packC f) = f := by
  obtain ⟨i16, I, V, F, r, op⟩ := f
  simp only [unpackC, opField, CFields.mk.injEq, BitVec.toNat_eq, toNat_extractLsb', toNat_packC]
  omega

@[simp] theorem unpackS_packS (f : SFields) : unpackS (packS f) = f := by
  obtain ⟨i12, V, F, rB, rA, op⟩ := f
  simp only [unpackS, opField, SFields.mk.injEq, BitVec.toNat_eq, toNat_extractLsb', toNat_packS]
  omega

@[simp] theorem unpackI_packI (f : IFields) : unpackI (packI f) = f := by
  obtain ⟨i20, I, r, op⟩ := f
  simp only [unpackI, opField, IFields.mk.injEq, BitVec.toNat_eq, toNat_extractLsb', toNat_packI]
  omega

@[simp] theorem unpackA_packA (f : AFields) : unpackA (packA f) = f := by
  obtain ⟨unused, rC, rB, rA, op⟩ := f
  simp only [unpackA, opField, AFields.mk.injEq, BitVec.toNat_eq, toNat_extractLsb', toNat_packA]
  omega

/-- Settles O4. -/
theorem formatLayouts : Obligations.FormatLayouts :=
  ⟨fun w => ⟨packR_unpackR w, toNat_eq_unpackR w⟩, fun w => ⟨packC_unpackC w, toNat_eq_unpackC w⟩,
    fun w => ⟨packS_unpackS w, toNat_eq_unpackS w⟩, fun w => ⟨packI_unpackI w, toNat_eq_unpackI w⟩,
    fun w => ⟨packA_unpackA w, toNat_eq_unpackA w⟩, unpackR_packR, unpackC_packC, unpackS_packS, unpackI_packI, unpackA_packA⟩

end Sys2Proof
end

section
/-! PROOFS. The condition field of a conditional branch (30_encoding.md R90, R91). -/

namespace Sys2Proof

/-! ## The sixteen values of the field -/

theorem testOf_F_V (t : Test) : testOf t.F t.V = some t := by
  cases t <;> rfl

/-- The test a field selects has that field. -/
theorem eq_F_V_of_testOf : ∀ (F : BitVec 3) (V : BitVec 1), ∀ t ∈ testOf F V, F = t.F ∧ V = t.V := by decide

theorem testOf_eq_some_iff {F : BitVec 3} {V : BitVec 1} {t : Test} : testOf F V = some t ↔ F = t.F ∧ V = t.V := by
  constructor
  · exact eq_F_V_of_testOf F V t
  · rintro ⟨rfl, rfl⟩
    exact testOf_F_V t

theorem testOf_eq_none_iff : ∀ (F : BitVec 3) (V : BitVec 1), testOf F V = none ↔ F = 6 ∨ F = 7 := by decide

/-- A field selects a test exactly when its flag selector is well formed (R91). -/
theorem exists_testOf_iff (F : BitVec 3) (V : BitVec 1) : (∃ t, testOf F V = some t) ↔ F.toNat < 6 := by
  rw [← Option.ne_none_iff_exists', ne_eq, testOf_eq_none_iff]
  bv_omega

/-- Settles O8. -/
theorem reservedConditionFields : Obligations.ReservedConditionFields := ⟨testOf_F_V, testOf_eq_none_iff⟩

end Sys2Proof

namespace Sys2Proof.Machine

/-! ## When a test is true -/

/-- `cond(F, V) = (flagval(F) = V)`, for the field of each test. -/
theorem testHolds_iff_flagVal (t : Test) (f : Flags) : testHolds t f = true ↔ flagVal t.F f = some (t.V == 1) := by
  cases t <;> simp [testHolds, flagVal, Test.F, Test.V, Bool.or_eq_true, imp_iff_not_or]

/-- Settles O7: the table's rows are read off `testOf` and `testHolds`; a field selects one test, whose `F` and `V` are the field's. -/
theorem conditionTable : Obligations.ConditionTable := by
  refine ⟨⟨rfl, rfl, rfl, rfl, rfl, rfl, rfl, rfl, rfl, rfl, rfl, rfl⟩, fun f => ⟨?rows, fun F V t hselects => ?cond⟩⟩
  case rows => simp [testHolds]
  case cond =>
    obtain ⟨rfl, rfl⟩ := testOf_eq_some_iff.mp hselects
    exact testHolds_iff_flagVal t f

end Sys2Proof.Machine
end

section
/-! PROOFS. The values of operands and targets, and the fields that written integers and labels become (30_encoding.md R87, R88, R103, R104). -/

namespace Sys2Proof

/-! ## A written integer and its field -/

variable {N : Nat} {v : Int} {f : BitVec N}

theorem fitsSigned_iff : fitsSigned N v = true ↔ -2 ^ (N - 1) ≤ v ∧ v < 2 ^ (N - 1) := by
  simp only [fitsSigned, Bool.and_eq_true, decide_eq_true_eq]

theorem fitsUnsigned_iff : fitsUnsigned N v = true ↔ 0 ≤ v ∧ v < 2 ^ N := by
  simp only [fitsUnsigned, Bool.and_eq_true, decide_eq_true_eq]

theorem writtenImm_eq_some_iff : writtenImm N v = some f ↔ (-2 ^ (N - 1) ≤ v ∧ v < 2 ^ (N - 1)) ∧ BitVec.ofInt N v = f := by
  rw [← fitsSigned_iff, writtenImm, Option.ite_none_right_eq_some, Option.some_inj]

theorem writtenUImm_eq_some_iff : writtenUImm N v = some f ↔ (0 ≤ v ∧ v < 2 ^ N) ∧ BitVec.ofInt N v = f := by
  rw [← fitsUnsigned_iff, writtenUImm, Option.ite_none_right_eq_some, Option.some_inj]

/-- The integers that have a signed field. -/
theorem exists_writtenImm_iff : (∃ f, writtenImm N v = some f) ↔ -2 ^ (N - 1) ≤ v ∧ v < 2 ^ (N - 1) := by
  simp only [writtenImm_eq_some_iff, exists_and_left, exists_eq', and_true]

/-- The integers that have an unsigned field. -/
theorem exists_writtenUImm_iff : (∃ f, writtenUImm N v = some f) ↔ 0 ≤ v ∧ v < 2 ^ N := by
  simp only [writtenUImm_eq_some_iff, exists_and_left, exists_eq', and_true]

theorem toInt_of_writtenImm (hN : 0 < N) (h : writtenImm N v = some f) : f.toInt = v := by
  obtain ⟨⟨hlo, hhi⟩, rfl⟩ := writtenImm_eq_some_iff.mp h
  exact BitVec.toInt_ofInt_eq_self hN hlo hhi

theorem toNat_of_writtenUImm (h : writtenUImm N v = some f) : (f.toNat : Int) = v := by
  obtain ⟨⟨hlo, hhi⟩, rfl⟩ := writtenUImm_eq_some_iff.mp h
  have hmod : v % 2 ^ N = v := Int.emod_eq_of_lt hlo hhi
  rw [BitVec.toNat_ofInt, Nat.cast_pow, Nat.cast_ofNat, hmod, Int.toNat_of_nonneg hlo]

/-- The field of a label is the word offset from the next instruction (R103). -/
theorem of_labelField {A L : Word} (hN : 0 < N) (h : labelField N A L = some f) :
    4 * f.toInt = L.toNat - (A.toNat + 4) := by
  obtain ⟨haligned, hwritten⟩ := Option.ite_none_right_eq_some.mp h
  rw [toInt_of_writtenImm hN hwritten, Int.mul_ediv_cancel_of_dvd (Int.dvd_of_emod_eq_zero haligned)]

end Sys2Proof

namespace Sys2Proof.Machine

variable {N : Nat}

/-! ## Extension, and sums modulo 2^32 -/

theorem toInt_sext (hN : N ≤ 32) (v : BitVec N) : (sext v).toInt = v.toInt := BitVec.toInt_signExtend_of_le hN

theorem toNat_zext (hN : N ≤ 32) (v : BitVec N) : (zext v).toNat = v.toNat := BitVec.toNat_setWidth_of_le hN

theorem sext_eq_ofInt (v : BitVec N) : sext v = BitVec.ofInt 32 v.toInt := rfl

theorem branchOffset_eq_ofInt (v : BitVec N) : branchOffset v = BitVec.ofInt 32 (4 * v.toInt) := by
  rw [branchOffset, sext_eq_ofInt, BitVec.shiftLeft_eq_mul_twoPow, mul_comm 4, BitVec.ofInt_mul]
  rfl

/-- An integer added to an address, modulo 2^32. -/
theorem toNat_add_ofInt (a : Word) (k : Int) : ((a + BitVec.ofInt 32 k).toNat : Int) = (a.toNat + k) % 2 ^ 32 := by
  rw [BitVec.toNat_add, BitVec.toNat_ofInt]
  omega

theorem State.branchBase_toNat (s : State) (k : Int) :
    ((s.branchBase.toNat : Int) + k) % 2 ^ 32 =
      (s.pc.toNat + (if s.params.branchBase = .next then 4 else 0) + k) % 2 ^ 32 := by
  unfold State.branchBase State.npc
  cases s.params.branchBase with
  | next =>
    have hnpc : (s.pc + 4).toNat = (s.pc.toNat + 4) % 2 ^ 32 := BitVec.toNat_add s.pc 4
    rw [if_pos rfl, hnpc]
    omega
  | self => rw [if_neg BranchBase.noConfusion, add_zero]

/-- A relative target (R88, R160). -/
theorem State.toNat_branchBase_add_branchOffset (s : State) (v : BitVec N) :
    ((s.branchBase + branchOffset v).toNat : Int) =
      (s.pc.toNat + (if s.params.branchBase = .next then 4 else 0) + 4 * v.toInt) % 2 ^ 32 := by
  rw [branchOffset_eq_ofInt, toNat_add_ofInt, State.branchBase_toNat]

/-! ## The statements -/

theorem toInt_sext_of_writtenImm {v : Int} {f : BitVec N} (hpos : 0 < N) (hN : N ≤ 32) (h : writtenImm N v = some f) :
    (sext f).toInt = v :=
  (toInt_sext hN f).trans (toInt_of_writtenImm hpos h)

/-- Settles O9. -/
theorem writtenImmediatesFit : Obligations.WrittenImmediatesFit := by
  refine ⟨fun v => ?i15, fun v => ?i16, fun v => ?i20, fun v => ?u15,
    fun _ _ => toInt_sext_of_writtenImm (by decide) (by decide), fun _ _ => toInt_sext_of_writtenImm (by decide) (by decide),
    fun _ _ => toInt_sext_of_writtenImm (by decide) (by decide), fun v f h => ?zext⟩
  case i15 => rw [exists_writtenImm_iff]; omega
  case i16 => rw [exists_writtenImm_iff]; omega
  case i20 => rw [exists_writtenImm_iff]; omega
  case u15 => rw [exists_writtenUImm_iff]; omega
  case zext => rw [toNat_zext (by decide), toNat_of_writtenUImm h]

/-- Settles O11. -/
theorem operandValues : Obligations.OperandValues := by
  intro s
  refine ⟨fun rB => ⟨rfl, rfl, rfl⟩, fun i15 => ?signed, fun i15 => ?unsigned, fun rB i15 => ?address⟩
  case signed =>
    have hvalue : (s.op2 (.imm i15)).toInt = i15.toInt := toInt_sext (by decide) i15
    have hlo := i15.le_toInt
    have hhi := i15.toInt_lt
    exact ⟨hvalue, by omega, by omega⟩
  case unsigned =>
    have hvalue : (s.op2u (.imm i15)).toNat = i15.toNat := toNat_zext (by decide) i15
    exact ⟨hvalue, by omega⟩
  case address => exact toNat_add_ofInt (s.reg rB) i15.toInt

/-- Settles O12. -/
theorem branchTargets : Obligations.BranchTargets := fun s =>
  ⟨fun _ => ⟨rfl, rfl⟩, s.toNat_branchBase_add_branchOffset, s.toNat_branchBase_add_branchOffset⟩

/-- The branch base plus the field's offset is the label. -/
theorem State.branchBase_add_labelField {s : State} {L : Word} {f : BitVec N} (hN : 0 < N) (hnext : s.params.branchBase = .next)
    (h : labelField N s.pc L = some f) : s.branchBase + branchOffset f = L := by
  have htarget := s.toNat_branchBase_add_branchOffset f
  rw [of_labelField hN h, if_pos hnext] at htarget
  exact BitVec.eq_of_toNat_eq (by omega)

/-- Settles O10. -/
theorem labelFieldReachesLabel : Obligations.LabelFieldReachesLabel := fun _ _ hnext =>
  ⟨fun _ h => State.branchBase_add_labelField (by decide) hnext h, fun _ h => State.branchBase_add_labelField (by decide) hnext h⟩

end Sys2Proof.Machine
end

section
/-! PROOFS. The words of each operand form (30_encoding.md R86, R89): a word that is the encoder's in the bits a form uses is a word with that `OP` value and
those operands. -/

namespace Sys2Proof

variable {w mask : Word}

/-! ## A masked word that is a packed word, field by field -/

theorem eq_packR_iff {f : RFields} : w = packR f ↔ unpackR w = f :=
  ⟨fun h => h ▸ unpackR_packR f, fun h => h ▸ (packR_unpackR w).symm⟩

theorem eq_packC_iff {f : CFields} : w = packC f ↔ unpackC w = f :=
  ⟨fun h => h ▸ unpackC_packC f, fun h => h ▸ (packC_unpackC w).symm⟩

theorem eq_packI_iff {f : IFields} : w = packI f ↔ unpackI w = f :=
  ⟨fun h => h ▸ unpackI_packI f, fun h => h ▸ (packI_unpackI w).symm⟩

theorem and_eq_packR_iff {f g : RFields} (hmask : unpackR mask = g) :
    w &&& mask = packR f ↔ (unpackR w).i15 &&& g.i15 = f.i15 ∧ (unpackR w).I &&& g.I = f.I ∧
      (unpackR w).rB &&& g.rB = f.rB ∧ (unpackR w).rA &&& g.rA = f.rA ∧ opField w &&& g.op = f.op := by
  subst hmask
  obtain ⟨i15, I, rB, rA, op⟩ := f
  simp only [eq_packR_iff, unpackR, opField, BitVec.extractLsb'_and, RFields.mk.injEq]

theorem and_eq_packC_iff {f g : CFields} (hmask : unpackC mask = g) :
    w &&& mask = packC f ↔ (unpackC w).i16 &&& g.i16 = f.i16 ∧ (unpackC w).I &&& g.I = f.I ∧
      (unpackC w).V &&& g.V = f.V ∧ (unpackC w).F &&& g.F = f.F ∧ (unpackC w).r &&& g.r = f.r ∧ opField w &&& g.op = f.op := by
  subst hmask
  obtain ⟨i16, I, V, F, r, op⟩ := f
  simp only [eq_packC_iff, unpackC, opField, BitVec.extractLsb'_and, CFields.mk.injEq]

theorem and_eq_packI_iff {f g : IFields} (hmask : unpackI mask = g) :
    w &&& mask = packI f ↔ (unpackI w).i20 &&& g.i20 = f.i20 ∧ (unpackI w).I &&& g.I = f.I ∧
      (unpackI w).r &&& g.r = f.r ∧ opField w &&& g.op = f.op := by
  subst hmask
  obtain ⟨i20, I, r, op⟩ := f
  simp only [eq_packI_iff, unpackI, opField, BitVec.extractLsb'_and, IFields.mk.injEq]

/-! ## The operand a word's fields select (R86) -/

theorem RFields.src_eq_reg_iff {f : RFields} {rB : RegIdx} : f.src = .reg rB ↔ f.I = 0 ∧ f.rB = rB := by
  obtain hI | hI := f.I.eq_zero_or_eq_one
  all_goals simp [RFields.src, hI]

theorem RFields.src_eq_imm_iff {f : RFields} {i15 : BitVec 15} : f.src = .imm i15 ↔ f.I = 1 ∧ f.i15 = i15 := by
  obtain hI | hI := f.I.eq_zero_or_eq_one
  all_goals simp [RFields.src, hI]

theorem RFields.target_eq_base_iff {f : RFields} {rB : RegIdx} : f.target = .base rB ↔ f.I = 0 ∧ f.rB = rB := by
  obtain hI | hI := f.I.eq_zero_or_eq_one
  all_goals simp [RFields.target, hI]

theorem RFields.target_eq_disp_iff {f : RFields} {rB : RegIdx} {i15 : BitVec 15} :
    f.target = .disp rB i15 ↔ f.I = 1 ∧ f.rB = rB ∧ f.i15 = i15 := by
  obtain hI | hI := f.I.eq_zero_or_eq_one
  all_goals simp [RFields.target, hI]

theorem IFields.jumpTo_eq_reg_iff {f : IFields} {r : RegIdx} : f.jumpTo = .reg r ↔ f.I = 0 ∧ f.r = r := by
  obtain hI | hI := f.I.eq_zero_or_eq_one
  all_goals simp [IFields.jumpTo, hI]

theorem IFields.jumpTo_eq_rel_iff {f : IFields} {i20 : BitVec 20} : f.jumpTo = .rel i20 ↔ f.I = 1 ∧ f.i20 = i20 := by
  obtain hI | hI := f.I.eq_zero_or_eq_one
  all_goals simp [IFields.jumpTo, hI]

theorem CFields.branchTo_eq_reg_iff {f : CFields} {r : RegIdx} : f.branchTo = .reg r ↔ f.I = 0 ∧ f.r = r := by
  obtain hI | hI := f.I.eq_zero_or_eq_one
  all_goals simp [CFields.branchTo, hI]

theorem CFields.branchTo_eq_rel_iff {f : CFields} {i16 : BitVec 16} : f.branchTo = .rel i16 ↔ f.I = 1 ∧ f.i16 = i16 := by
  obtain hI | hI := f.I.eq_zero_or_eq_one
  all_goals simp [CFields.branchTo, hI]

/-! ## The words of each operand form, in the bits it uses -/

variable {op : BitVec 6} {rA : RegIdx}

theorem and_usedSrc_eq_encodeSrc_iff {src : Src} :
    w &&& usedSrc src = encodeSrc op rA src ↔ opField w = op ∧ (unpackR w).rA = rA ∧ (unpackR w).src = src := by
  cases src with
  | reg rB =>
    have hmask : unpackR 0x0001FFFF = { i15 := 0, I := .allOnes 1, rB := .allOnes 5, rA := .allOnes 5, op := .allOnes 6 } := rfl
    rw [usedSrc, encodeSrc, and_eq_packR_iff hmask, RFields.src_eq_reg_iff]
    simp only [BitVec.ofNat_eq_ofNat, BitVec.and_zero, BitVec.and_allOnes]
    tauto
  | imm i15 =>
    have hmask : unpackR 0xFFFF07FF = { i15 := .allOnes 15, I := .allOnes 1, rB := 0, rA := .allOnes 5, op := .allOnes 6 } := rfl
    rw [usedSrc, encodeSrc, and_eq_packR_iff hmask, RFields.src_eq_imm_iff]
    simp only [BitVec.ofNat_eq_ofNat, BitVec.and_zero, BitVec.and_allOnes]
    tauto

theorem and_eq_encodeUnary_iff :
    w &&& 0x000007FF#32 = encodeUnary op rA ↔ opField w = op ∧ (unpackR w).rA = rA := by
  have hmask : unpackR 0x000007FF#32 = { i15 := 0, I := 0, rB := 0, rA := .allOnes 5, op := .allOnes 6 } := rfl
  rw [encodeUnary, and_eq_packR_iff hmask]
  simp only [BitVec.ofNat_eq_ofNat, BitVec.and_zero, BitVec.and_allOnes]
  tauto

theorem and_usedTarget_eq_encodeTarget_iff {t : Target} :
    w &&& usedTarget t = encodeTarget op rA t ↔ opField w = op ∧ (unpackR w).rA = rA ∧ (unpackR w).target = t := by
  cases t with
  | base rB =>
    have hmask : unpackR 0x0001FFFF = { i15 := 0, I := .allOnes 1, rB := .allOnes 5, rA := .allOnes 5, op := .allOnes 6 } := rfl
    rw [usedTarget, encodeTarget, and_eq_packR_iff hmask, RFields.target_eq_base_iff]
    simp only [BitVec.ofNat_eq_ofNat, BitVec.and_zero, BitVec.and_allOnes]
    tauto
  | disp rB i15 =>
    have hmask : unpackR 0xFFFFFFFF =
      { i15 := .allOnes 15, I := .allOnes 1, rB := .allOnes 5, rA := .allOnes 5, op := .allOnes 6 } := rfl
    rw [usedTarget, encodeTarget, and_eq_packR_iff hmask, RFields.target_eq_disp_iff]
    simp only [BitVec.and_allOnes]
    tauto

theorem and_usedJump_eq_encodeJump_iff {d : JumpTo} :
    w &&& usedJump d = encodeJump op d ↔ opField w = op ∧ (unpackI w).jumpTo = d := by
  cases d with
  | reg r =>
    have hmask : unpackI 0x00000FFF = { i20 := 0, I := .allOnes 1, r := .allOnes 5, op := .allOnes 6 } := rfl
    rw [usedJump, encodeJump, and_eq_packI_iff hmask, IFields.jumpTo_eq_reg_iff]
    simp only [BitVec.ofNat_eq_ofNat, BitVec.and_zero, BitVec.and_allOnes]
    tauto
  | rel i20 =>
    have hmask : unpackI 0xFFFFF83F = { i20 := .allOnes 20, I := .allOnes 1, r := 0, op := .allOnes 6 } := rfl
    rw [usedJump, encodeJump, and_eq_packI_iff hmask, IFields.jumpTo_eq_rel_iff]
    simp only [BitVec.ofNat_eq_ofNat, BitVec.and_zero, BitVec.and_allOnes]
    tauto

theorem and_usedBranch_eq_encodeBranch_iff {t : Test} {d : BranchTo} :
    w &&& usedBranch d = encodeBranch op t d ↔
      opField w = op ∧ ((unpackC w).F = t.F ∧ (unpackC w).V = t.V) ∧ (unpackC w).branchTo = d := by
  cases d with
  | reg r =>
    have hmask : unpackC 0x0000FFFF =
      { i16 := 0, I := .allOnes 1, V := .allOnes 1, F := .allOnes 3, r := .allOnes 5, op := .allOnes 6 } := rfl
    rw [usedBranch, encodeBranch, and_eq_packC_iff hmask, CFields.branchTo_eq_reg_iff]
    simp only [BitVec.ofNat_eq_ofNat, BitVec.and_zero, BitVec.and_allOnes]
    tauto
  | rel i16 =>
    have hmask : unpackC 0xFFFFF83F =
      { i16 := .allOnes 16, I := .allOnes 1, V := .allOnes 1, F := .allOnes 3, r := 0, op := .allOnes 6 } := rfl
    rw [usedBranch, encodeBranch, and_eq_packC_iff hmask, CFields.branchTo_eq_rel_iff]
    simp only [BitVec.ofNat_eq_ofNat, BitVec.and_zero, BitVec.and_allOnes]
    tauto

end Sys2Proof
end

section
/-! PROOFS. The decoder and the encoder (30_encoding.md R89, R95, R97, R98). The fact both directions rest on: a word decodes to an instruction exactly when, in
the bits the instruction uses, it is the instruction's word. -/

namespace Sys2Proof

variable {m : OpMap} {w : Word} {i : Instr} {o : Operation}

/-! ## One instruction: its operation, its operands, its word -/

theorem branchOf_inj {t t' : Test} {d d' : BranchTo} : branchOf t d = branchOf t' d' ↔ t = t' ∧ d = d' := by
  cases t <;> cases t' <;> simp [branchOf]

theorem operationOf_branchOf (t : Test) (d : BranchTo) : operationOf (branchOf t d) = .branch := by
  cases t <;> rfl

theorem decodeAs_branch_of_testOf {t : Test} (h : testOf (unpackC w).F (unpackC w).V = some t) :
    decodeAs w .branch = .ok (branchOf t (unpackC w).branchTo) := by
  simp only [decodeAs, h]

theorem decodeAs_branch_of_reserved (h : testOf (unpackC w).F (unpackC w).V = none) :
    decodeAs w .branch = .error (.reservedCond (unpackC w).F) := by
  simp only [decodeAs, h]

theorem decodeAs_branch_eq_branchOf_iff {t : Test} {d : BranchTo} :
    decodeAs w .branch = .ok (branchOf t d) ↔
      ((unpackC w).F = t.F ∧ (unpackC w).V = t.V) ∧ (unpackC w).branchTo = d := by
  rw [← testOf_eq_some_iff]
  cases h : testOf (unpackC w).F (unpackC w).V with
  | some t' => simp [decodeAs_branch_of_testOf h, branchOf_inj]
  | none => simp [decodeAs_branch_of_reserved h]

/-- What is decoded as an operation belongs to it. -/
theorem operationOf_of_decodeAs (h : decodeAs w o = .ok i) : operationOf i = o := by
  cases o with
  | branch =>
    cases htest : testOf (unpackC w).F (unpackC w).V with
    | some t =>
      rw [decodeAs_branch_of_testOf htest] at h
      cases h
      exact operationOf_branchOf t _
    | none =>
      rw [decodeAs_branch_of_reserved htest] at h
      cases h
  | _ => cases h; rfl

theorem opField_and_decodeAs_branch_iff (m : OpMap) (w : Word) (t : Test) (d : BranchTo) :
    opField w = m.branch ∧ decodeAs w .branch = .ok (branchOf t d) ↔ w &&& usedBranch d = encodeBranch m.branch t d := by
  rw [and_usedBranch_eq_encodeBranch_iff, decodeAs_branch_eq_branchOf_iff]

/-- A word has the `OP` value and the operands of `i` exactly when it is the word of `i` in the bits `i` uses. -/
theorem opField_and_decodeAs_iff (m : OpMap) (w : Word) (i : Instr) :
    opField w = m.code (operationOf i) ∧ decodeAs w (operationOf i) = .ok i ↔ w &&& usedBits i = encode m i := by
  cases i with
  | add _ _ | mul _ _ | sub _ _ | and _ _ | or _ _ | shiftl _ _ | shiftr _ _ | shiftrs _ _ | xor _ _ | cmp _ _ | cmpu _ _ =>
    simp [decodeAs, operationOf, OpMap.code, usedBits, encode, and_usedSrc_eq_encodeSrc_iff]
  | dec _ | inc _ | not _ =>
    simp [decodeAs, operationOf, OpMap.code, usedBits, encode, and_eq_encodeUnary_iff]
  | lw _ _ | ls _ _ | lb _ _ | stw _ _ | sts _ _ | stb _ _ =>
    simp [decodeAs, operationOf, OpMap.code, usedBits, encode, and_usedTarget_eq_encodeTarget_iff, and_comm]
  | j _ => simp [decodeAs, operationOf, OpMap.code, usedBits, encode, and_usedJump_eq_encodeJump_iff]
  | be d => exact opField_and_decodeAs_branch_iff m w .e d
  | bne d => exact opField_and_decodeAs_branch_iff m w .ne d
  | bz d => exact opField_and_decodeAs_branch_iff m w .z d
  | bnz d => exact opField_and_decodeAs_branch_iff m w .nz d
  | bo d => exact opField_and_decodeAs_branch_iff m w .o d
  | bno d => exact opField_and_decodeAs_branch_iff m w .no d
  | bs d => exact opField_and_decodeAs_branch_iff m w .s d
  | bns d => exact opField_and_decodeAs_branch_iff m w .ns d
  | bl d => exact opField_and_decodeAs_branch_iff m w .l d
  | bge d => exact opField_and_decodeAs_branch_iff m w .ge d
  | bg d => exact opField_and_decodeAs_branch_iff m w .g d
  | ble d => exact opField_and_decodeAs_branch_iff m w .le d

theorem encodeSrc_and_usedSrc (op : BitVec 6) (rA : RegIdx) (src : Src) :
    encodeSrc op rA src &&& usedSrc src = encodeSrc op rA src := by
  rw [and_usedSrc_eq_encodeSrc_iff]
  cases src <;> simp [encodeSrc, RFields.src]

theorem encodeUnary_and_usedBits (op : BitVec 6) (rA : RegIdx) :
    encodeUnary op rA &&& 0x000007FF#32 = encodeUnary op rA := by
  rw [and_eq_encodeUnary_iff]
  simp [encodeUnary]

theorem encodeTarget_and_usedTarget (op : BitVec 6) (rA : RegIdx) (t : Target) :
    encodeTarget op rA t &&& usedTarget t = encodeTarget op rA t := by
  rw [and_usedTarget_eq_encodeTarget_iff]
  cases t <;> simp [encodeTarget, RFields.target]

theorem encodeJump_and_usedJump (op : BitVec 6) (d : JumpTo) : encodeJump op d &&& usedJump d = encodeJump op d := by
  rw [and_usedJump_eq_encodeJump_iff]
  cases d <;> simp [encodeJump, IFields.jumpTo]

theorem encodeBranch_and_usedBranch (op : BitVec 6) (t : Test) (d : BranchTo) :
    encodeBranch op t d &&& usedBranch d = encodeBranch op t d := by
  rw [and_usedBranch_eq_encodeBranch_iff]
  cases d <;> simp [encodeBranch, CFields.branchTo]

/-- The encoder writes the bits an instruction does not use as zeros. -/
theorem encode_and_usedBits (m : OpMap) (i : Instr) : encode m i &&& usedBits i = encode m i := by
  cases i with
  | add _ _ | mul _ _ | sub _ _ | and _ _ | or _ _ | shiftl _ _ | shiftr _ _ | shiftrs _ _ | xor _ _ | cmp _ _ | cmpu _ _ =>
    exact encodeSrc_and_usedSrc _ _ _
  | dec _ | inc _ | not _ => exact encodeUnary_and_usedBits _ _
  | lw _ _ | ls _ _ | lb _ _ | stw _ _ | sts _ _ | stb _ _ => exact encodeTarget_and_usedTarget _ _ _
  | j _ => exact encodeJump_and_usedJump _ _
  | be _ | bne _ | bz _ | bnz _ | bo _ | bno _ | bs _ | bns _ | bl _ | bge _ | bg _ | ble _ =>
    exact encodeBranch_and_usedBranch _ _ _

/-! ## The decoder: both directions -/

theorem decode_eq_ok_iff_exists :
    decode m w = .ok i ↔ ∃ o, m.operation (opField w) = some o ∧ decodeAs w o = .ok i := by
  cases h : m.operation (opField w) <;> simp [decode, h]

theorem decode_eq_ok_iff :
    decode m w = .ok i ↔ m.operation (opField w) = some (operationOf i) ∧ decodeAs w (operationOf i) = .ok i := by
  rw [decode_eq_ok_iff_exists]
  constructor
  · rintro ⟨o, hop, hdecode⟩
    rw [operationOf_of_decodeAs hdecode]
    exact ⟨hop, hdecode⟩
  · exact fun h => ⟨_, h⟩

/-- A legal OPMAP read backwards is its inverse. -/
theorem OpMap.operation_eq_some_iff (hm : m.wf = true) {op : BitVec 6} : m.operation op = some o ↔ m.code o = op := by
  refine ⟨OpMap.code_of_operation, fun hcode => ?_⟩
  cases h : m.operation op with
  | some o' => rw [OpMap.code_injective hm ((OpMap.code_of_operation h).trans hcode.symm)]
  | none => exact absurd hcode (by simpa using List.find?_eq_none.mp h o (mem_allOperations o))

/-- The decoder of a legal OPMAP: a word decodes to `i` exactly when it is the word of `i` in the bits `i` uses. -/
theorem decode_eq_ok_iff_and_usedBits (hm : m.wf = true) : decode m w = .ok i ↔ w &&& usedBits i = encode m i := by
  rw [decode_eq_ok_iff, OpMap.operation_eq_some_iff hm, eq_comm, opField_and_decodeAs_iff]

/-- Settles O1: the word of `i` is the word of `i` in the bits used. -/
theorem decodeOfEncode : Obligations.DecodeOfEncode := fun m hm i =>
  (decode_eq_ok_iff_and_usedBits hm).mpr (encode_and_usedBits m i)

/-- Settles O2: the bits that `i` uses fix both the `OP` value and the operands. The OPMAP need not be legal: that the `OP` value
belongs to the operation of `i` is taken from the word that decodes. -/
theorem unusedFieldsAreIgnored : Obligations.UnusedFieldsAreIgnored := by
  intro m w i h
  obtain ⟨hop, hdecode⟩ := decode_eq_ok_iff.mp h
  have hcode : opField w = m.code (operationOf i) := (OpMap.code_of_operation hop).symm
  have hw : w &&& usedBits i = encode m i := (opField_and_decodeAs_iff m w i).mp ⟨hcode, hdecode⟩
  refine ⟨hw.symm, fun w' hagrees => ?_⟩
  obtain ⟨hcode', hdecode'⟩ := (opField_and_decodeAs_iff m w' i).mpr (hagrees.trans hw)
  rw [decode_eq_ok_iff, hcode', ← hcode]
  exact ⟨hop, hdecode'⟩

/-! ## The words without a meaning (R91, R96, R98) -/

theorem exists_decodeAs_iff : (∃ i, decodeAs w o = .ok i) ↔ (o = .branch → (unpackC w).F.toNat < 6) := by
  cases o with
  | branch =>
    rw [← exists_testOf_iff _ (unpackC w).V]
    cases htest : testOf (unpackC w).F (unpackC w).V with
    | some t => simp [decodeAs_branch_of_testOf htest]
    | none => simp [decodeAs_branch_of_reserved htest]
  | _ => exact ⟨fun _ => Operation.noConfusion, fun _ => ⟨_, rfl⟩⟩

theorem OpMap.mem_codes_iff {op : BitVec 6} : op ∈ m.codes ↔ ∃ o, m.code o = op := by
  simp [OpMap.codes_eq, mem_allOperations]

theorem OpMap.code_eq_branch_iff (hm : m.wf = true) : m.code o = m.branch ↔ o = .branch :=
  ⟨fun h => OpMap.code_injective hm h, fun h => h ▸ rfl⟩

/-- Settles O3: an `OP` value is assigned to one operation, and only the operation of the branches can refuse the fields. -/
theorem illegalWordsAreExactlyReserved : Obligations.IllegalWordsAreExactlyReserved := by
  intro m hm w
  have hF : (unpackC w).F.toNat = w.toNat / 2 ^ 11 % 8 := toNat_extractLsb' w 11 3
  rw [OpMap.mem_codes_iff, ← hF]
  simp only [decode_eq_ok_iff_exists, OpMap.operation_eq_some_iff hm]
  constructor
  · rintro ⟨i, o, hcode, hdecode⟩
    refine ⟨⟨o, hcode⟩, fun hbranch => exists_decodeAs_iff.mp ⟨i, hdecode⟩ ?_⟩
    exact (OpMap.code_eq_branch_iff hm).mp (hcode.trans hbranch)
  · rintro ⟨⟨o, hcode⟩, hreserved⟩
    have hfield : o = .branch → (unpackC w).F.toNat < 6 := fun hbranch =>
      hreserved (hcode.symm.trans ((OpMap.code_eq_branch_iff hm).mpr hbranch))
    obtain ⟨i, hdecode⟩ := exists_decodeAs_iff.mpr hfield
    exact ⟨i, o, hcode, hdecode⟩

/-! ## The bytes of a word -/

/-- The bytes of a word, in either order, decode as the word. -/
theorem decodeBytes_cellBytes (order : ByteOrder) (m : OpMap) (w : Word) :
    decodeBytes order m (cellBytes order 4 w) = (decode m w).map fun i => (i, []) := by
  have hvalue : cellValue order (cellBytes order 4 w) = w := by
    rw [Machine.cellValue_cellBytes, Nat.mod_eq_of_lt w.isLt, BitVec.ofNat_toNat, BitVec.setWidth_eq]
  obtain ⟨b0, b1, b2, b3, hbytes⟩ := List.length_eq_four.mp (Machine.cellBytes_length order 4 w)
  rw [hbytes] at hvalue ⊢
  rw [decodeBytes, hvalue]
  cases decode m w <;> rfl

theorem decodeTableWord_of_decode (h : decode defaultOpMap w = .ok i) : decodeTableWord 32 w.toNat = some i := by
  have hword : BitVec.ofNat 32 (w.toNat % 2 ^ 32) = w := by
    rw [Nat.mod_eq_of_lt w.isLt, BitVec.ofNat_toNat, BitVec.setWidth_eq]
  rw [decodeTableWord, hword, decodeBytes_cellBytes, h]
  rfl

/-- Settles O6. -/
theorem tableWordDecodes : Obligations.TableWordDecodes := fun i =>
  decodeTableWord_of_decode (decodeOfEncode defaultOpMap defaultOpMap_wf i)

end Sys2Proof
end

section
/-! PROOFS. No instruction of the table is without a meaning (30_encoding.md R100). -/

namespace Sys2Proof.Machine

theorem exec_ne_refused (i : Instr) (s : State) (r : Refusal) : exec i s ≠ .refused r := by
  cases execForm i with
  | compute rA src mask value written row exec_eq => rw [exec_eq]; exact nofun
  | compare rA src extend written row exec_eq => rw [exec_eq]; exact nofun
  | jump dst eq_j => rw [eq_j, exec_j]; exact nofun
  | branch c dst eq_branchOf => rw [eq_branchOf, exec_branchOf, branchIf]; exact nofun
  | load n rA target row loads exec_eq => rw [exec_eq]; exact loadCell_not_refused
  | store n target rA row stores exec_eq => rw [exec_eq]; exact storeCell_not_refused

/-- Settles O15: a step ends in the fault of its fetch, or in what its instruction answers. -/
theorem stepIsNeverRefused : Obligations.StepIsNeverRefused := by
  intro s r
  cases hfetch : fetchInstr s with
  | error f => simp [step, raise, hfetch]
  | ok i => rw [step_eq_exec_of_fetchInstr hfetch]; exact exec_ne_refused i s r

end Sys2Proof.Machine
end

section
/-! PROOFS. Arithmetic (40_arithmetic.md): the result modulo 2^32, the flags it gives, the frame, and when `o` is set. -/

namespace Sys2Proof.Machine

/-! ## The flags, and the state an instruction with a destination leaves, in the terms of the statements -/

section
variable {s : State} {rA : RegIdx} {r v : Word}

theorem Flags.withZS_eq_zsFrom (f : Flags) (r : Word) : f.withZS r = zsFrom f r := by
  have hz : zeroOf r = decide (r.toNat = 0) := by
    rw [Bool.eq_iff_iff, zeroOf, beq_iff_eq, decide_eq_true_iff, ← BitVec.toNat_inj]
    rfl
  have hs : signOf r = r.getLsbD 31 := BitVec.msb_eq_getLsbD_last r
  rw [Flags.withZS, zsFrom, hz, hs]

theorem Flags.withZOS_eq_zsFrom (f : Flags) (r : Word) (o : Bool) : f.withZOS r o = { zsFrom f r with o := o } := by
  rw [← Flags.withZS_eq_zsFrom]
  rfl

theorem State.wroteReg_retire (s : State) (rA : RegIdx) (v : Word) (f : Flags) : wroteReg s (s.retire rA v f) rA v f :=
  ⟨State.reg_setReg_same s rA v, fun _ hr => State.reg_setReg_other s v hr, rfl, rfl, rfl, rfl⟩

/-- The common end of `add inc dec mul` completes, whatever value `v` its result is shown to be. -/
theorem exists_wroteReg_arithZOS (op : OverflowOp) (a b : Word) (hv : r = v) :
    ∃ t, arithZOS op rA a b r s = .next t ∧
      wroteReg s t rA v { zsFrom s.flags v with o := overflow s.params.overflowRule op a b } := by
  refine ⟨_, arithZOS_next_iff.mpr rfl, ?_⟩
  rw [Flags.withZOS_eq_zsFrom, hv]
  exact State.wroteReg_retire s rA v _

/-- The common end of `sub` and the bitwise operations completes, whatever value `v` its result is shown to be. -/
theorem exists_wroteReg_bitwiseZS (hv : r = v) :
    ∃ t, bitwiseZS rA r s = .next t ∧ wroteReg s t rA v (zsFrom s.flags v) := by
  refine ⟨_, bitwiseZS_next_iff.mpr rfl, ?_⟩
  rw [Flags.withZS_eq_zsFrom, hv]
  exact State.wroteReg_retire s rA v _

end

/-! ## Words as integers modulo 2^32 (decision D30) -/

theorem add_eq_ofNat (a b : Word) : a + b = BitVec.ofNat 32 (a.toNat + b.toNat) := BitVec.add_def a b

theorem mul_eq_ofNat (a b : Word) : a * b = BitVec.ofNat 32 (a.toNat * b.toNat) := by
  rw [BitVec.ofNat_mul, BitVec.ofNat_toNat, BitVec.ofNat_toNat, BitVec.setWidth_eq, BitVec.setWidth_eq]

theorem sub_eq_ofInt (a b : Word) : a - b = BitVec.ofInt 32 (a.toNat - b.toNat) := by
  apply BitVec.eq_of_toNat_eq
  rw [BitVec.toNat_sub, BitVec.toNat_ofInt]
  omega

/-! ## The instructions -/

section
variable (rA : RegIdx) (src : Src) (s : State)

theorem exec_add : exec (.add rA src) s = arithZOS .add rA (s.reg rA) (s.op2 src) (s.reg rA + s.op2 src) s := rfl

theorem exec_dec : exec (.dec rA) s = arithZOS .dec rA (s.reg rA) 1 (s.reg rA - 1) s := rfl

theorem exec_inc : exec (.inc rA) s = arithZOS .inc rA (s.reg rA) 1 (s.reg rA + 1) s := rfl

theorem exec_mul : exec (.mul rA src) s = arithZOS .mul rA (s.reg rA) (s.op2 src) (s.reg rA * s.op2 src) s := rfl

theorem exec_sub : exec (.sub rA src) s = bitwiseZS rA (s.reg rA - s.op2 src) s := rfl

end

/-- Settles O22. -/
theorem addResult : Obligations.AddResult := by
  intro rA src s
  rw [exec_add]
  exact exists_wroteReg_arithZOS .add _ _ (add_eq_ofNat _ _)

/-- Settles O23. -/
theorem decResult : Obligations.DecResult := by
  intro rA s
  rw [exec_dec]
  exact exists_wroteReg_arithZOS .dec _ _ (sub_eq_ofInt _ 1)

/-- Settles O24. -/
theorem incResult : Obligations.IncResult := by
  intro rA s
  rw [exec_inc]
  exact exists_wroteReg_arithZOS .inc _ _ (add_eq_ofNat _ 1)

/-- Settles O25. -/
theorem mulResult : Obligations.MulResult := by
  intro rA src s
  rw [exec_mul]
  exact exists_wroteReg_arithZOS .mul _ _ (mul_eq_ofNat _ _)

/-- Settles O26: `sub` ends as the bitwise operations do, writing Z and S only. -/
theorem subResult : Obligations.SubResult := by
  intro rA src s
  rw [exec_sub]
  exact exists_wroteReg_bitwiseZS (sub_eq_ofInt _ _)

/-! ## When `o` is set (decision D12) -/

section
variable (a b : Word)

theorem outsideSigned_iff {v : Int} : outsideSigned v = true ↔ v < -2 ^ 31 ∨ 2 ^ 31 ≤ v := by
  rw [outsideSigned, Bool.or_eq_true, decide_eq_true_iff, decide_eq_true_iff]

/-- An integer is out of the signed range exactly when the word it is cut to does not read back as it. -/
theorem outsideSigned_iff_toInt_ofInt_ne {v : Int} : outsideSigned v = true ↔ (BitVec.ofInt 32 v).toInt ≠ v := by
  rw [outsideSigned_iff]
  have hlt : (BitVec.ofInt 32 v).toInt < 2 ^ 31 := BitVec.toInt_lt
  have hle : -2 ^ 31 ≤ (BitVec.ofInt 32 v).toInt := BitVec.le_toInt _
  have hself : -2 ^ 31 ≤ v → v < 2 ^ 31 → (BitVec.ofInt 32 v).toInt = v := BitVec.toInt_ofInt_eq_self (w := 32) (by decide)
  omega

theorem unsignedOverflow_add_iff : unsignedOverflow .add a b = true ↔ 2 ^ 32 ≤ a.toNat + b.toNat := decide_eq_true_iff

theorem unsignedOverflow_inc_iff : unsignedOverflow .inc a b = true ↔ a = 0xFFFFFFFF := by
  rw [unsignedOverflow, decide_eq_true_iff]
  bv_omega

theorem unsignedOverflow_dec_iff : unsignedOverflow .dec a b = true ↔ a = 0 := by
  rw [unsignedOverflow, decide_eq_true_iff]
  bv_omega

theorem unsignedOverflow_mul_iff : unsignedOverflow .mul a b = true ↔ 2 ^ 32 ≤ a.toNat * b.toNat := decide_eq_true_iff

theorem signedOverflow_add_iff : signedOverflow .add a b = true ↔ (a + b).toInt ≠ a.toInt + b.toInt := by
  rw [signedOverflow, outsideSigned_iff_toInt_ofInt_ne, BitVec.ofInt_add, BitVec.ofInt_toInt, BitVec.ofInt_toInt]

theorem signedOverflow_mul_iff : signedOverflow .mul a b = true ↔ (a * b).toInt ≠ a.toInt * b.toInt := by
  rw [signedOverflow, outsideSigned_iff_toInt_ofInt_ne, BitVec.ofInt_mul, BitVec.ofInt_toInt, BitVec.ofInt_toInt]

/-- Only the largest signed word has no signed successor. -/
theorem signedOverflow_inc_iff : signedOverflow .inc a b = true ↔ a = 0x7FFFFFFF := by
  have hmax : (0x7FFFFFFF : Word).toInt = 2 ^ 31 - 1 := by decide
  have hlt : a.toInt < 2 ^ 31 := BitVec.toInt_lt
  have hle : -2 ^ 31 ≤ a.toInt := BitVec.le_toInt a
  rw [signedOverflow, outsideSigned_iff, ← BitVec.toInt_inj, hmax]
  omega

/-- Only the smallest signed word has no signed predecessor. -/
theorem signedOverflow_dec_iff : signedOverflow .dec a b = true ↔ a = 0x80000000 := by
  have hmin : (0x80000000 : Word).toInt = -2 ^ 31 := by decide
  have hlt : a.toInt < 2 ^ 31 := BitVec.toInt_lt
  have hle : -2 ^ 31 ≤ a.toInt := BitVec.le_toInt a
  rw [signedOverflow, outsideSigned_iff, ← BitVec.toInt_inj, hmin]
  omega

end

/-- Settles O27. -/
theorem overflowRules : Obligations.OverflowRules := fun a b =>
  ⟨unsignedOverflow_add_iff a b, unsignedOverflow_inc_iff a b, unsignedOverflow_dec_iff a b, unsignedOverflow_mul_iff a b,
    signedOverflow_add_iff a b, signedOverflow_inc_iff a b, signedOverflow_dec_iff a b, signedOverflow_mul_iff a b⟩

/-! ## No fault but from a memory access -/

/-- Settles O16: of the six forms an instruction can have, only a load and a store can do anything but complete. -/
theorem onlyMemoryAccessFaults : Obligations.OnlyMemoryAccessFaults := by
  intro i s hload hstore
  cases execForm i with
  | compute rA src mask value written row exec_eq => exact ⟨_, exec_eq s⟩
  | compare rA src extend written row exec_eq => exact ⟨_, exec_eq s⟩
  | jump dst eq_j => exact ⟨_, eq_j ▸ exec_j dst s⟩
  | branch c dst eq_branchOf => exact ⟨_, eq_branchOf ▸ exec_branchOf c dst s⟩
  | load n rA target row loads exec_eq => exact nomatch (loads s).symm.trans hload
  | store n target rA row stores exec_eq => exact nomatch (stores s).symm.trans hstore

end Sys2Proof.Machine
end

section
/-! PROOFS. Bitwise operations (41_bitwise.md): the bits of the logical results, and the shifts as exact arithmetic by any amount. -/

namespace Sys2Proof.Machine

/-! ## The instructions -/

section
variable (rA : RegIdx) (src : Src) (s : State)

theorem exec_and : exec (.and rA src) s = bitwiseZS rA (s.reg rA &&& s.op2 src) s := rfl

theorem exec_or : exec (.or rA src) s = bitwiseZS rA (s.reg rA ||| s.op2 src) s := rfl

theorem exec_xor : exec (.xor rA src) s = bitwiseZS rA (s.reg rA ^^^ s.op2 src) s := rfl

theorem exec_not : exec (.not rA) s = bitwiseZS rA (s.reg rA ^^^ 0xFFFFFFFF) s := rfl

theorem exec_shiftl :
    exec (.shiftl rA src) s = bitwiseZS rA (shiftLeft (s.reg rA) (shiftAmount s.params.shiftOver (s.op2 src))) s := rfl

theorem exec_shiftr :
    exec (.shiftr rA src) s = bitwiseZS rA (shiftRight (s.reg rA) (shiftAmount s.params.shiftOver (s.op2 src))) s := rfl

theorem exec_shiftrs :
    exec (.shiftrs rA src) s = bitwiseZS rA (shiftRightSigned (s.reg rA) (shiftAmount s.params.shiftOver (s.op2 src))) s := rfl

end

theorem ones_eq_allOnes : (0xFFFFFFFF : Word) = BitVec.allOnes 32 := rfl

/-! ## The shifts (R148, decision D14): the bound of 32 in the model's shifts changes no result -/

section
variable (a : Word) (n : Nat)

theorem shiftLeft_eq_hShiftLeft : shiftLeft a n = a <<< n := by
  rw [shiftLeft]
  split
  case isTrue => rfl
  case isFalse hn => exact (BitVec.shiftLeft_eq_zero (not_lt.mp hn)).symm

theorem shiftRight_eq_hShiftRight : shiftRight a n = a >>> n := by
  rw [shiftRight]
  split
  case isTrue => rfl
  case isFalse hn => exact (BitVec.ushiftRight_eq_zero (not_lt.mp hn)).symm

/-- Shifted right by its whole width or more, a signed word is all sign. -/
theorem sshiftRight_of_width_le {n : Nat} (hn : 32 ≤ n) : a.sshiftRight n = if a.msb then 0xFFFFFFFF else 0 := by
  have hbits : ∀ i < 32, (a.sshiftRight n).getLsbD i = a.msb := fun i hi => by
    rw [BitVec.getLsbD_sshiftRight, if_neg (by omega), decide_eq_false (by omega), Bool.not_false, Bool.true_and]
  apply BitVec.eq_of_getLsbD_eq
  intro i hi
  rw [hbits i hi]
  cases a.msb with
  | false => exact BitVec.getLsbD_zero.symm
  | true => rw [if_pos rfl, ones_eq_allOnes, BitVec.getLsbD_allOnes, decide_eq_true hi]

theorem shiftRightSigned_eq_sshiftRight : shiftRightSigned a n = a.sshiftRight n := by
  rw [shiftRightSigned]
  split
  case isTrue => rfl
  case isFalse hn => exact (sshiftRight_of_width_le a (not_lt.mp hn)).symm

theorem shiftLeft_eq_ofNat : shiftLeft a n = BitVec.ofNat 32 (a.toNat * 2 ^ n) := by
  apply BitVec.eq_of_toNat_eq
  rw [shiftLeft_eq_hShiftLeft, BitVec.toNat_shiftLeft, BitVec.toNat_ofNat, Nat.shiftLeft_eq]

theorem shiftRight_eq_ofNat : shiftRight a n = BitVec.ofNat 32 (a.toNat / 2 ^ n) := by
  rw [shiftRight_eq_hShiftRight, ← Nat.shiftRight_eq_div_pow, ← BitVec.toNat_ushiftRight, BitVec.ofNat_toNat, BitVec.setWidth_eq]

theorem shiftRightSigned_eq_ofInt : shiftRightSigned a n = BitVec.ofInt 32 (a.toInt / 2 ^ n) := by
  rw [shiftRightSigned_eq_sshiftRight, BitVec.sshiftRight_eq, Int.shiftRight_eq_div_pow, Nat.cast_pow, Nat.cast_ofNat]

theorem shiftAmount_eq_ite (rule : ShiftOver) (op2 : Word) :
    shiftAmount rule op2 = if rule = .allOut then op2.toNat else op2.toNat % 32 := by
  cases rule <;> rfl

end

/-- Settles O29. -/
theorem shiftResults : Obligations.ShiftResults := by
  intro rA src s n hn
  rw [← shiftAmount_eq_ite] at hn
  rw [exec_shiftl, exec_shiftr, exec_shiftrs, ← hn]
  exact ⟨exists_wroteReg_bitwiseZS (shiftLeft_eq_ofNat _ n), exists_wroteReg_bitwiseZS (shiftRight_eq_ofNat _ n),
    exists_wroteReg_bitwiseZS (shiftRightSigned_eq_ofInt _ n)⟩

/-! ## The logical operations, bit by bit (R141, R142, R143, R147) -/

theorem getLsbD_xor_ones (a : Word) {i : Nat} (hi : i < 32) : (a ^^^ 0xFFFFFFFF).getLsbD i = !a.getLsbD i := by
  rw [ones_eq_allOnes, BitVec.xor_allOnes, BitVec.getLsbD_not, decide_eq_true hi, Bool.true_and]

/-- The common end of the family completes, and what is known of its result's bits is known of the value written. -/
theorem exists_wroteReg_bits_bitwiseZS {s : State} {rA : RegIdx} {r : Word} {bit : Nat → Bool}
    (hbits : ∀ i, i < 32 → r.getLsbD i = bit i) :
    ∃ t v, bitwiseZS rA r s = .next t ∧ wroteReg s t rA v (zsFrom s.flags v) ∧ ∀ i, i < 32 → v.getLsbD i = bit i := by
  obtain ⟨t, hnext, hwrote⟩ := exists_wroteReg_bitwiseZS (s := s) (rA := rA) (rfl : r = r)
  exact ⟨t, r, hnext, hwrote, hbits⟩

/-- Settles O28. -/
theorem logicResults : Obligations.LogicResults := by
  intro rA src s
  rw [exec_and, exec_or, exec_xor, exec_not]
  exact ⟨exists_wroteReg_bits_bitwiseZS fun _ _ => BitVec.getLsbD_and, exists_wroteReg_bits_bitwiseZS fun _ _ => BitVec.getLsbD_or,
    exists_wroteReg_bits_bitwiseZS fun _ _ => BitVec.getLsbD_xor, exists_wroteReg_bits_bitwiseZS fun _ => getLsbD_xor_ones _⟩

end Sys2Proof.Machine
end

section
/-! PROOFS. Branching (42_branching.md): a jump or branch is a `goto` and nothing else, a branch's word carries its test's condition field, and a
misaligned target faults at the next fetch. -/

namespace Sys2Proof

/-! ## The words of the branches, by their test (30_encoding.md R82, R90) -/

theorem encode_branchOf (m : OpMap) (t : Test) (dst : BranchTo) : encode m (branchOf t dst) = encodeBranch m.branch t dst := by
  cases t <;> rfl

theorem unpackC_encode_branchOf (m : OpMap) (t : Test) (dst : BranchTo) :
    (unpackC (encode m (branchOf t dst))).F = t.F ∧ (unpackC (encode m (branchOf t dst))).V = t.V := by
  rw [encode_branchOf]
  cases dst with
  | reg r => rw [encodeBranch, unpackC_packC]; exact ⟨rfl, rfl⟩
  | rel i16 => rw [encodeBranch, unpackC_packC]; exact ⟨rfl, rfl⟩

end Sys2Proof

namespace Sys2Proof.Machine

variable {s : State} {c : Test} {dst : BranchTo}

/-! ## Where a jump or branch goes (R161, R162) -/

theorem State.wentTo_goto (s : State) (a : Word) : wentTo s (s.goto a) a := ⟨rfl, rfl, rfl, rfl, rfl⟩

/-- Settles O30. -/
theorem jumpResult : Obligations.JumpResult := fun dst s => ⟨_, exec_j dst s, s.wentTo_goto _⟩

/-- A branch is a `goto` whether taken or not: not taken, it goes to `npc`. -/
theorem exec_branchOf_eq_goto (c : Test) (dst : BranchTo) (s : State) :
    exec (branchOf c dst) s = .next (s.goto (if testHolds c s.flags = true then s.branchTarget dst else s.npc)) := by
  rw [exec_branchOf, branchIf, apply_ite s.goto]
  rfl

/-- A branch completes and goes where any statement of its test says. -/
theorem exists_wentTo_branchOf {taken : Prop} [Decidable taken] (htest : testHolds c s.flags = true ↔ taken) :
    ∃ t, exec (branchOf c dst) s = .next t ∧ wentTo s t (if taken then s.branchTarget dst else s.npc) := by
  rw [exec_branchOf_eq_goto, if_congr htest rfl rfl]
  exact ⟨_, rfl, s.wentTo_goto _⟩

/-- Settles O31: when each test holds is read off the Conditional flags table (`conditionTable`). -/
theorem conditionalBranches : Obligations.ConditionalBranches := by
  refine ⟨fun dst s => ?taken, fun m dst => ?fields, ?words⟩
  case taken =>
    obtain ⟨-, hrows⟩ := conditionTable
    obtain ⟨⟨he, hne, hz, hnz, ho, hno, hs, hns, hl, hge, hg, hle⟩, -⟩ := hrows s.flags
    exact ⟨exists_wentTo_branchOf he, exists_wentTo_branchOf hne, exists_wentTo_branchOf hz, exists_wentTo_branchOf hnz,
      exists_wentTo_branchOf ho, exists_wentTo_branchOf hno, exists_wentTo_branchOf hs, exists_wentTo_branchOf hns,
      exists_wentTo_branchOf hl, exists_wentTo_branchOf hge, exists_wentTo_branchOf hg, exists_wentTo_branchOf hle⟩
  case fields =>
    have hfield := fun t => unpackC_encode_branchOf m t dst
    exact ⟨hfield .e, hfield .ne, hfield .z, hfield .nz, hfield .o, hfield .no, hfield .s, hfield .ns, hfield .l, hfield .ge,
      hfield .g, hfield .le⟩
  case words => decide

/-! ## A misaligned target (R176, decision D5) -/

theorem step_eq_fault_of_misaligned (hpc : s.pc.toNat % 4 ≠ 0) : step s = .fault (.misalignedFetch s.pc) := by
  have hfetch : fetchWord s = .error (.misalignedFetch s.pc) := fetchWord_error_iff.mpr (.inl ⟨hpc, rfl⟩)
  exact step_fault_iff.mpr (.inl (fetchInstr_error_iff.mpr (.inl hfetch)))

/-- Settles O32: a taken branch is the same `goto` as `j`, and the state after it has a misaligned `pc`. -/
theorem misalignedTargetFaultsAtNextFetch : Obligations.MisalignedTargetFaultsAtNextFetch := by
  intro s r hr
  have hfault : step (s.goto (s.reg r)) = .fault (.misalignedFetch (s.reg r)) := step_eq_fault_of_misaligned hr
  refine ⟨⟨_, exec_j (.reg r) s, rfl, hfault⟩, fun c htaken => ⟨s.goto (s.reg r), ?branch, rfl, hfault⟩⟩
  case branch => rw [exec_branchOf_eq_goto, if_pos htaken, State.branchTarget]

end Sys2Proof.Machine
end

section
/-! PROOFS. Comparison (44_comparison.md): the flags a comparison writes, the order the tests read off them, and what it leaves unchanged. -/

namespace Sys2Proof.Machine

/-! ## The flags of a comparison (R204) -/

section
variable {a b : Word} {lt : Bool}

theorem Flags.compared_swapped (f : Flags) :
    f.compared .swapped a b lt = { e := decide (a = b), z := decide (a = b ∧ a = 0), o := f.o, s := lt } := by
  simp [Flags.compared, Bool.decide_and, Bool.beq_eq_decide_eq]

theorem Flags.compared_literal (f : Flags) :
    f.compared .literal a b lt = { e := decide (a = b ∧ a = 0), z := decide (a = b), o := f.o, s := lt } := by
  simp [Flags.compared, Bool.decide_and, Bool.beq_eq_decide_eq]

/-- The old flags reach a comparison's result in `o` alone. -/
theorem Flags.compared_ezs_eq (f f' : Flags) (rule : CmpEZ) :
    (f'.compared rule a b lt).e = (f.compared rule a b lt).e ∧ (f'.compared rule a b lt).z = (f.compared rule a b lt).z ∧
      (f'.compared rule a b lt).s = (f.compared rule a b lt).s := by
  cases rule <;> exact ⟨rfl, rfl, rfl⟩

theorem Flags.compared_s (f : Flags) (rule : CmpEZ) : (f.compared rule a b lt).s = lt := by
  cases rule <;> rfl

theorem Flags.compared_o (f : Flags) (rule : CmpEZ) : (f.compared rule a b lt).o = f.o := by
  cases rule <;> rfl

theorem eq_and_eq_zero_iff : a = b ∧ a = 0 ↔ a = 0 ∧ b = 0 := by
  constructor
  · rintro ⟨rfl, ha⟩
    exact ⟨ha, ha⟩
  · rintro ⟨rfl, rfl⟩
    exact ⟨rfl, rfl⟩

end

theorem exec_cmp (rA : RegIdx) (src : Src) (s : State) :
    exec (.cmp rA src) s = compareEZS (s.reg rA) (s.op2 src) (decide ((s.reg rA).toInt < (s.op2 src).toInt)) s := rfl

theorem exec_cmpu (rA : RegIdx) (src : Src) (s : State) :
    exec (.cmpu rA src) s = compareEZS (s.reg rA) (s.op2u src) (decide ((s.reg rA).toNat < (s.op2u src).toNat)) s := rfl

/-! ## The tests as an order (R203)

`x` and `y` are the operands read as signed or as unsigned: `s` says that `x` is below `y`, and `e` is set for equal operands only. -/

section
variable {α : Type} [LinearOrder α] {x y : α} {f : Flags}

theorem testHolds_ns_iff_le (hs : f.s = true ↔ x < y) : testHolds .ns f = true ↔ y ≤ x := by
  rw [← not_lt, ← hs]
  simp [testHolds]

theorem testHolds_l_iff_lt (hs : f.s = true ↔ x < y) (he : f.e = true → x = y) : testHolds .l f = true ↔ x < y := by
  have hne : x < y → ¬ f.e = true := fun hlt e => hlt.ne (he e)
  simpa [testHolds, hs] using hne

theorem testHolds_ge_iff_le (hs : f.s = true ↔ x < y) (he : f.e = true → x = y) : testHolds .ge f = true ↔ y ≤ x := by
  rw [← not_lt, ← testHolds_l_iff_lt hs he]
  simp [testHolds, imp_iff_not_or]

theorem testHolds_g_iff (hs : f.s = true ↔ x < y) : testHolds .g f = true ↔ y ≤ x ∧ ¬ f.e = true := by
  rw [← testHolds_ns_iff_le hs]
  simp [testHolds, and_comm]

theorem testHolds_le_iff (hs : f.s = true ↔ x < y) : testHolds .le f = true ↔ x < y ∨ f.e = true := by
  rw [← hs]
  simp [testHolds, or_comm]

end

section
variable {α : Type} [LinearOrder α] {read : Word → α} {a b : Word} {lt : Bool}

/-- The twelve rows of R203 under `swapped`: `e` is equality, so `s` and `e` together are the order. -/
theorem tests_compared_swapped (hread : read.Injective) (hlt : lt = true ↔ read a < read b) (f : Flags) :
    let g := f.compared .swapped a b lt
    (testHolds .e g = true ↔ a = b) ∧ (testHolds .ne g = true ↔ a ≠ b) ∧
      (testHolds .z g = true ↔ a = 0 ∧ b = 0) ∧ (testHolds .nz g = true ↔ ¬(a = 0 ∧ b = 0)) ∧
      (testHolds .s g = true ↔ read a < read b) ∧ (testHolds .ns g = true ↔ read b ≤ read a) ∧
      (testHolds .l g = true ↔ read a < read b) ∧ (testHolds .ge g = true ↔ read b ≤ read a) ∧
      (testHolds .g g = true ↔ read b < read a) ∧ (testHolds .le g = true ↔ read a ≤ read b) ∧
      testHolds .o g = f.o ∧ testHolds .no g = !f.o := by
  intro g
  have hg : g = { e := decide (a = b), z := decide (a = b ∧ a = 0), o := f.o, s := lt } := f.compared_swapped
  have he : g.e = true ↔ a = b := by rw [hg, decide_eq_true_iff]
  have hz : g.z = true ↔ a = 0 ∧ b = 0 := by rw [hg, decide_eq_true_iff, eq_and_eq_zero_iff]
  have hs : g.s = true ↔ read a < read b := by rw [hg, hlt]
  have hequal : g.e = true ↔ read a = read b := he.trans hread.eq_iff.symm
  refine ⟨he, ?ne, hz, ?nz, hs, testHolds_ns_iff_le hs, testHolds_l_iff_lt hs hequal.mp, testHolds_ge_iff_le hs hequal.mp,
    ?g, ?le, ?o, ?no⟩
  case ne => rw [ne_eq, ← he]; simp [testHolds]
  case nz => rw [← hz]; simp [testHolds]
  case g => rw [testHolds_g_iff hs, hequal, lt_iff_le_and_ne, ne_comm]
  case le => rw [testHolds_le_iff hs, hequal, le_iff_lt_or_eq]
  case o => rw [hg]; rfl
  case no => rw [hg]; rfl

/-- The six rows R203 lists under `literal`: `e` is set for two zeros only, so equal operands that are not zero count as greater. -/
theorem tests_compared_literal (hread : read.Injective) (hlt : lt = true ↔ read a < read b) (f : Flags) :
    let g := f.compared .literal a b lt
    (testHolds .e g = true ↔ a = 0 ∧ b = 0) ∧ (testHolds .z g = true ↔ a = b) ∧
      (testHolds .l g = true ↔ read a < read b) ∧ (testHolds .ge g = true ↔ read b ≤ read a) ∧
      (testHolds .g g = true ↔ read b < read a ∨ a = b ∧ a ≠ 0) ∧
      (testHolds .le g = true ↔ read a < read b ∨ a = 0 ∧ b = 0) := by
  intro g
  have hg : g = { e := decide (a = b ∧ a = 0), z := decide (a = b), o := f.o, s := lt } := f.compared_literal
  have he : g.e = true ↔ a = b ∧ a = 0 := by rw [hg, decide_eq_true_iff]
  have hz : g.z = true ↔ a = b := by rw [hg, decide_eq_true_iff]
  have hs : g.s = true ↔ read a < read b := by rw [hg, hlt]
  have hequal : g.e = true → read a = read b := fun e => congrArg read (he.mp e).1
  refine ⟨he.trans eq_and_eq_zero_iff, hz, testHolds_l_iff_lt hs hequal, testHolds_ge_iff_le hs hequal, ?g, ?le⟩
  case g =>
    rw [testHolds_g_iff hs, he, le_iff_lt_or_eq, hread.eq_iff, eq_comm (a := b)]
    have hne : read b < read a → a ≠ b := fun h e => h.ne (congrArg read e.symm)
    tauto
  case le => rw [testHolds_le_iff hs, he, eq_and_eq_zero_iff]

end

theorem toInt_injective : Function.Injective (BitVec.toInt : Word → Int) := fun _ _ => BitVec.eq_of_toInt_eq

/-- Settles O36. -/
theorem testsAfterSignedCompare : Obligations.TestsAfterSignedCompare := by
  intro rA src s hswapped
  refine ⟨_, exec_cmp rA src s, ?_⟩
  rw [State.advance_flags, State.setFlags_flags, hswapped]
  exact tests_compared_swapped toInt_injective decide_eq_true_iff s.flags

/-- Settles O37. -/
theorem testsAfterUnsignedCompare : Obligations.TestsAfterUnsignedCompare := by
  intro rA src s hswapped
  refine ⟨_, exec_cmpu rA src s, ?_⟩
  rw [State.advance_flags, State.setFlags_flags, hswapped]
  exact tests_compared_swapped BitVec.toNat_injective decide_eq_true_iff s.flags

/-- Settles O38. -/
theorem testsAfterLiteralCompare : Obligations.TestsAfterLiteralCompare := by
  intro rA src s hliteral
  refine ⟨⟨_, exec_cmp rA src s, ?signed⟩, ⟨_, exec_cmpu rA src s, ?unsigned⟩⟩ <;>
    rw [State.advance_flags, State.setFlags_flags, hliteral]
  case signed => exact tests_compared_literal toInt_injective decide_eq_true_iff s.flags
  case unsigned => exact tests_compared_literal BitVec.toNat_injective decide_eq_true_iff s.flags

/-- R204: what a comparison that completes leaves in the flags, under each CMP_EZ. -/
theorem exists_next_compareEZS (a b : Word) (lt : Bool) (s : State) :
    ∃ t, compareEZS a b lt s = .next t ∧
      (s.params.cmpEZ = .swapped →
        t.flags = { e := decide (a = b), z := decide (a = b ∧ a = 0), o := s.flags.o, s := lt }) ∧
      (s.params.cmpEZ = .literal →
        t.flags = { z := decide (a = b), e := decide (a = b ∧ a = 0), o := s.flags.o, s := lt }) := by
  refine ⟨_, rfl, fun hrule => ?swapped, fun hrule => ?literal⟩ <;> rw [State.advance_flags, State.setFlags_flags, hrule]
  case swapped => exact s.flags.compared_swapped
  case literal => exact s.flags.compared_literal

/-- Settles O35. -/
theorem compareResults : Obligations.CompareResults := fun rA src s =>
  ⟨exists_next_compareEZS (s.reg rA) (s.op2 src) _ s, exists_next_compareEZS (s.reg rA) (s.op2u src) _ s⟩

/-! ## What a comparison depends on and leaves unchanged (R200) -/

section
variable {i : Instr} {a b : Word} {lt : Bool} {s s' t t' : State}

theorem compareEZS_ezs_congr (hrule : s'.params.cmpEZ = s.params.cmpEZ) (h : compareEZS a b lt s = .next t)
    (h' : compareEZS a b lt s' = .next t') :
    t'.flags.e = t.flags.e ∧ t'.flags.z = t.flags.z ∧ t'.flags.s = t.flags.s := by
  obtain rfl := compareEZS_next_iff.mp h
  obtain rfl := compareEZS_next_iff.mp h'
  simp only [State.advance_flags, State.setFlags_flags, hrule]
  exact s.flags.compared_ezs_eq s'.flags s.params.cmpEZ

/-- An instruction that is a comparison and reaches neither memory nor the old flags. -/
theorem exists_next_of_exec_eq_compareEZS {below : Prop} (hexec : exec i s = compareEZS a b lt s) (hlt : lt = true ↔ below)
    (hmask : flagsWritten i = maskEZS) (hbranch : isBranch i = false) (hload : loadsFrom i s = none)
    (hstore : storesTo i s = none) :
    ∃ t, exec i s = .next t ∧ t.regs = s.regs ∧ t.mem = s.mem ∧ t.params = s.params ∧ t.pc = s.pc + 4 ∧
      t.flags.o = s.flags.o ∧ (t.flags.s = true ↔ below) ∧
      (∀ m : Memory, exec i { s with mem := m } = .next { t with mem := m }) ∧
      ∀ f : Flags, exec i (s.setFlags f) = .next (t.setFlags { t.flags with o := f.o }) := by
  refine ⟨_, hexec, rfl, rfl, rfl, rfl, s.flags.compared_o _, ?s, fun m => ?mem, fun f => ?flags⟩
  case s => rw [State.advance_flags, State.setFlags_flags, Flags.compared_s, hlt]
  case mem => rw [onlyLoadsAndStoresReachMemory i s m hload hstore, hexec]; rfl
  case flags => rw [exec_setFlags hbranch, hmask, hexec]; rfl

end

/-- Settles O34. -/
theorem comparisonsWriteOnlyEZS : Obligations.ComparisonsWriteOnlyEZS := by
  intro rA src s
  refine ⟨?register, ?immediate, fun s' t t' hreg hrule => ⟨fun hop2 h h' => ?cmp, fun hop2u h h' => ?cmpu⟩,
    exists_next_of_exec_eq_compareEZS (exec_cmp rA src s) decide_eq_true_iff rfl rfl rfl rfl,
    exists_next_of_exec_eq_compareEZS (exec_cmpu rA src s) decide_eq_true_iff rfl rfl rfl rfl⟩
  case register =>
    rintro rB rfl
    exact ⟨rfl, rfl⟩
  case immediate =>
    rintro i15 rfl
    exact ⟨toInt_sext (by decide) i15, toNat_zext (by decide) i15⟩
  case cmp =>
    rw [exec_cmp, hreg, hop2] at h'
    exact compareEZS_ezs_congr hrule h h'
  case cmpu =>
    rw [exec_cmpu, hreg, hop2u] at h'
    exact compareEZS_ezs_congr hrule h h'

end Sys2Proof.Machine
end

section
/-! PROOFS. Loads and stores (45_memory_access.md): what each one writes when it passes its checks, its frame, and the fault of the check it does not pass. -/

namespace Sys2Proof.Machine

/-! ## The six instructions as accesses of one size each -/

section
variable (rA : RegIdx) (tg : Target) (s : State)

theorem exec_lw : exec (.lw rA tg) s = loadCell 4 rA tg s := rfl

theorem exec_ls : exec (.ls rA tg) s = loadCell 2 rA tg s := rfl

theorem exec_lb : exec (.lb rA tg) s = loadCell 1 rA tg s := rfl

theorem exec_stw : exec (.stw tg rA) s = storeCell 4 tg rA s := rfl

theorem exec_sts : exec (.sts tg rA) s = storeCell 2 tg rA s := rfl

theorem exec_stb : exec (.stb tg rA) s = storeCell 1 tg rA s := rfl

end

/-! ## Loads that pass their checks -/

section
variable {s : State} {rA : RegIdx} {tg : Target} {n : Nat}

theorem exists_wroteReg_loadCell (haligned : (s.ea tg).toNat % n = 0) (hvalid : hasBytes s.params (s.ea tg) n = true) :
    ∃ t, loadCell n rA tg s = .next t ∧
      wroteReg s t rA (s.memRead (s.ea tg) n) (zsFrom s.flags (s.memRead (s.ea tg) n)) := by
  refine ⟨_, loadCell_next_iff.mpr ⟨⟨haligned, hvalid⟩, rfl⟩, ?_⟩
  rw [← Flags.withZS_eq_zsFrom]
  exact State.wroteReg_retire s rA _ _

/-- A cell is zero-extended: its value has no bit above its bytes. -/
theorem State.memRead_toNat_lt (s : State) (a : Word) (hn : n ≤ 4) : (s.memRead a n).toNat < 2 ^ (8 * n) := by
  cases horder : s.params.byteOrder with
  | little =>
    rw [State.memRead_toNat_little horder hn]
    simpa using leValue_lt (s.mem.readBytes a n)
  | big =>
    rw [State.memRead_toNat_big horder hn]
    simpa using leValue_lt (s.mem.readBytes a n).reverse

/-- A value below the sign bit leaves `s` clear. -/
theorem zsFrom_of_lt (f : Flags) {v : Word} (hv : v.toNat < 2 ^ 31) : zsFrom f v = { f with z := decide (v = 0), s := false } := by
  have hz : decide (v.toNat = 0) = decide (v = 0) := decide_eq_decide.mpr (BitVec.toNat_inj (y := 0))
  have hs : v.getLsbD 31 = false := Nat.testBit_lt_two_pow hv
  rw [zsFrom, hz, hs]

theorem exists_wroteReg_narrow_loadCell (hn : n < 4) (haligned : (s.ea tg).toNat % n = 0)
    (hvalid : hasBytes s.params (s.ea tg) n = true) :
    ∃ t, loadCell n rA tg s = .next t ∧
      wroteReg s t rA (s.memRead (s.ea tg) n)
        { s.flags with z := decide (s.memRead (s.ea tg) n = 0), s := false } := by
  have hlt : (s.memRead (s.ea tg) n).toNat < 2 ^ 31 :=
    (s.memRead_toNat_lt (s.ea tg) hn.le).trans_le (Nat.pow_le_pow_right two_pos (by omega))
  rw [← zsFrom_of_lt s.flags hlt]
  exact exists_wroteReg_loadCell haligned hvalid

end

/-- Settles O40: both cells are narrower than a word, so `s` is clear. -/
theorem narrowLoadResults : Obligations.NarrowLoadResults := by
  intro rA tg s
  rw [exec_ls, exec_lb]
  refine ⟨fun haligned hvalid => ?short, fun hvalid => ?byte⟩
  case short =>
    obtain ⟨t, hnext, hwrote⟩ := exists_wroteReg_narrow_loadCell (rA := rA) (by decide) haligned hvalid
    exact ⟨t, _, hnext, rfl, s.memRead_toNat_lt _ (by decide), hwrote⟩
  case byte =>
    obtain ⟨t, hnext, hwrote⟩ := exists_wroteReg_narrow_loadCell (rA := rA) (by decide) (Nat.mod_one _) hvalid
    exact ⟨t, _, hnext, rfl, s.memRead_one _, hwrote⟩

/-- Settles O39. -/
theorem loadWordResult : Obligations.LoadWordResult := by
  intro rA tg s haligned hvalid
  rw [exec_lw]
  exact exists_wroteReg_loadCell haligned hvalid

/-! ## Stores that pass their checks -/

section
variable {s : State} {rA : RegIdx} {tg : Target} {n : Nat}

theorem State.wroteCell_memWrite (a v : Word) (hm : s.mem.wf = true) (hn : n ≤ 2 ^ 32) :
    wroteCell s (s.memWrite a n v).advance a n v :=
  ⟨rfl, rfl, rfl, rfl, fun _ hi => State.byteAt_memWrite_inside hm hn hi, fun _ hx => State.byteAt_memWrite_outside v hx⟩

theorem exists_wroteCell_storeCell (hm : s.mem.wf = true) (hn : n ≤ 2 ^ 32) (haligned : (s.ea tg).toNat % n = 0)
    (hvalid : hasBytes s.params (s.ea tg) n = true) :
    ∃ t, storeCell n tg rA s = .next t ∧ wroteCell s t (s.ea tg) n (s.reg rA) :=
  ⟨_, storeCell_eq_next haligned hvalid, State.wroteCell_memWrite _ _ hm hn⟩

end

/-- Settles O41: the three widths of one fact about a store. -/
theorem storeResults : Obligations.StoreResults := by
  intro rA tg s hm
  rw [exec_stw, exec_sts, exec_stb]
  exact ⟨exists_wroteCell_storeCell hm (by decide), exists_wroteCell_storeCell hm (by decide),
    exists_wroteCell_storeCell hm (by decide) (Nat.mod_one _)⟩

/-! ## Accesses that fail a check -/

section
variable {i : Instr} {s : State} {ea : Word} {n : Nat}

theorem exec_eq_loadCell_of_loadsFrom (h : loadsFrom i s = some (ea, n)) :
    ∃ rA tg, s.ea tg = ea ∧ exec i s = loadCell n rA tg s := by
  unfold loadsFrom at h
  split at h <;> cases h
  · exact ⟨_, _, rfl, exec_lw _ _ s⟩
  · exact ⟨_, _, rfl, exec_ls _ _ s⟩
  · exact ⟨_, _, rfl, exec_lb _ _ s⟩

theorem exec_eq_storeCell_of_storesTo (h : storesTo i s = some (ea, n)) :
    ∃ rA tg, s.ea tg = ea ∧ exec i s = storeCell n tg rA s := by
  unfold storesTo at h
  split at h <;> cases h
  · exact ⟨_, _, rfl, exec_stw _ _ s⟩
  · exact ⟨_, _, rfl, exec_sts _ _ s⟩
  · exact ⟨_, _, rfl, exec_stb _ _ s⟩

theorem exec_fault_iff_of_loadsFrom (h : loadsFrom i s = some (ea, n)) {f : Fault} :
    exec i s = .fault f ↔ dataFault s.params .load ea n = some f := by
  obtain ⟨rA, tg, rfl, hexec⟩ := exec_eq_loadCell_of_loadsFrom h
  rw [hexec, loadCell_fault_iff]

theorem exec_fault_iff_of_storesTo (h : storesTo i s = some (ea, n)) {f : Fault} :
    exec i s = .fault f ↔ dataFault s.params .store ea n = some f := by
  obtain ⟨rA, tg, rfl, hexec⟩ := exec_eq_storeCell_of_storesTo h
  rw [hexec, storeCell_fault_iff]

theorem dataFault_of_misaligned {p : Params} {kind : AccessKind} (h : ea.toNat % n ≠ 0) :
    dataFault p kind ea n = some (.misalignedAccess ea n) :=
  dataFault_some_iff.mpr (.inl ⟨h, rfl⟩)

theorem dataFault_of_invalid {p : Params} {kind : AccessKind} (haligned : ea.toNat % n = 0) (hinvalid : hasBytes p ea n = false) :
    dataFault p kind ea n = some (.accessFault ea n kind) :=
  dataFault_some_iff.mpr (.inr ⟨haligned, hinvalid, rfl⟩)

end

/-- Settles O42: a load or store faults exactly as its check does. -/
theorem memoryAccessFaults : Obligations.MemoryAccessFaults := by
  intro i s ea n
  refine ⟨fun hload => ⟨fun hmisaligned => ?_, fun haligned hinvalid => ?_⟩,
    fun hstore => ⟨fun hmisaligned => ?_, fun haligned hinvalid => ?_⟩⟩
  · exact (exec_fault_iff_of_loadsFrom hload).mpr (dataFault_of_misaligned hmisaligned)
  · exact (exec_fault_iff_of_loadsFrom hload).mpr (dataFault_of_invalid haligned hinvalid)
  · exact (exec_fault_iff_of_storesTo hstore).mpr (dataFault_of_misaligned hmisaligned)
  · exact (exec_fault_iff_of_storesTo hstore).mpr (dataFault_of_invalid haligned hinvalid)

end Sys2Proof.Machine
end

section
/-! PROOFS. The faults of a step, in the order they are looked for (60_exceptions.md R232, R237): the fetch, the decoder, the access. -/

namespace Sys2Proof.Machine

variable {s : State} {i : Instr} {f : Fault}

/-! ## The fetch and the decoder -/

theorem fetchInstr_ok_iff_decode :
    fetchInstr s = .ok i ↔
      s.pc.toNat % 4 = 0 ∧ hasBytes s.params s.pc 4 = true ∧ decode s.params.opMap (s.memRead s.pc 4) = .ok i := by
  refine ⟨fun h => ?_, fun ⟨haligned, hvalid, hdecode⟩ => fetchInstr_eq_ok_of_decode haligned hvalid hdecode⟩
  obtain ⟨w, hword, hdecode⟩ := fetchInstr_ok_iff.mp h
  obtain ⟨haligned, hvalid, rfl⟩ := fetchWord_ok_iff.mp hword
  exact ⟨haligned, hvalid, hdecode⟩

theorem fetchInstr_error_iff_decode :
    fetchInstr s = .error f ↔
      s.pc.toNat % 4 ≠ 0 ∧ f = .misalignedFetch s.pc ∨
      s.pc.toNat % 4 = 0 ∧ hasBytes s.params s.pc 4 = false ∧ f = .accessFault s.pc 4 .fetch ∨
      s.pc.toNat % 4 = 0 ∧ hasBytes s.params s.pc 4 = true ∧
        (∃ d, decode s.params.opMap (s.memRead s.pc 4) = .error d) ∧ f = .illegalInstruction (s.memRead s.pc 4) := by
  rw [fetchInstr_error_iff, fetchWord_error_iff, or_assoc]
  refine or_congr_right (or_congr_right ⟨?_, ?_⟩)
  · rintro ⟨w, d, hword, hdecode, hf⟩
    obtain ⟨haligned, hvalid, rfl⟩ := fetchWord_ok_iff.mp hword
    exact ⟨haligned, hvalid, ⟨d, hdecode⟩, hf⟩
  · rintro ⟨haligned, hvalid, ⟨d, hdecode⟩, hf⟩
    exact ⟨_, d, fetchWord_ok_iff.mpr ⟨haligned, hvalid, rfl⟩, hdecode, hf⟩

/-! ## The access -/

/-- An instruction faults exactly when it is a load or a store whose check does. -/
theorem exec_fault_iff :
    exec i s = .fault f ↔ ∃ ea n kind,
      (loadsFrom i s = some (ea, n) ∧ kind = .load ∨ storesTo i s = some (ea, n) ∧ kind = .store) ∧
        dataFault s.params kind ea n = some f := by
  constructor
  · intro hfault
    cases hload : loadsFrom i s with
    | some cell => exact ⟨_, _, _, .inl ⟨rfl, rfl⟩, (exec_fault_iff_of_loadsFrom hload).mp hfault⟩
    | none =>
      cases hstore : storesTo i s with
      | some cell => exact ⟨_, _, _, .inr ⟨rfl, rfl⟩, (exec_fault_iff_of_storesTo hstore).mp hfault⟩
      | none =>
        obtain ⟨t, hnext⟩ := onlyMemoryAccessFaults i s hload hstore
        exact nomatch hnext.symm.trans hfault
  · rintro ⟨ea, n, kind, ⟨hload, rfl⟩ | ⟨hstore, rfl⟩, hcheck⟩
    · exact (exec_fault_iff_of_loadsFrom hload).mpr hcheck
    · exact (exec_fault_iff_of_storesTo hstore).mpr hcheck

/-- Settles O14: the fault is the fetch's, the decoder's, or that of the access of the decoded instruction. -/
theorem stepFaultsInOrder : Obligations.StepFaultsInOrder := by
  intro s f
  simp only [step_fault_iff, fetchInstr_error_iff_decode, fetchInstr_ok_iff_decode, exec_fault_iff, ← dataFault_some_iff]
  constructor
  · rintro ((hmisaligned | hinvalid | ⟨haligned, hvalid, hillegal⟩) | ⟨i, ⟨haligned, hvalid, hdecode⟩, ea, n, kind, haccess⟩)
    · exact .inl hmisaligned
    · exact .inr (.inl hinvalid)
    · exact .inr (.inr ⟨haligned, hvalid, .inl hillegal⟩)
    · exact .inr (.inr ⟨haligned, hvalid, .inr ⟨i, ea, n, kind, hdecode, haccess⟩⟩)
  · rintro (hmisaligned | hinvalid | ⟨haligned, hvalid, hillegal | ⟨i, ea, n, kind, hdecode, haccess⟩⟩)
    · exact .inl (.inl hmisaligned)
    · exact .inl (.inr (.inl hinvalid))
    · exact .inl (.inr (.inr ⟨haligned, hvalid, hillegal⟩))
    · exact .inr ⟨i, ⟨haligned, hvalid, hdecode⟩, ea, n, kind, haccess⟩

end Sys2Proof.Machine
end

section
/-! PROOFS. Where `pc` stays a multiple of 4 (60_exceptions.md R234; 42_branching.md R176): the advance and the relative targets keep it one, so that a
misaligned `pc` comes from a register. -/

namespace Sys2Proof.Machine

variable {s t : State} {i : Instr}

theorem State.pc_add_four_aligned (haligned : s.pc.toNat % 4 = 0) : (s.pc + 4).toNat % 4 = 0 := by
  bv_omega

/-- A branch offset is a multiple of 4 under either BRANCH_BASE (R88, R160). -/
theorem State.relativeTarget_aligned {N : Nat} (haligned : s.pc.toNat % 4 = 0) (v : BitVec N) :
    (s.branchBase + branchOffset v).toNat % 4 = 0 := by
  have htarget := s.toNat_branchBase_add_branchOffset v
  split at htarget <;> omega

theorem exists_reg_of_jumpTarget_misaligned {dst : JumpTo} (haligned : s.pc.toNat % 4 = 0)
    (hmisaligned : (s.jumpTarget dst).toNat % 4 ≠ 0) : ∃ r, dst = .reg r := by
  cases dst with
  | reg r => exact ⟨r, rfl⟩
  | rel i20 => exact absurd (State.relativeTarget_aligned haligned i20) hmisaligned

theorem exists_reg_of_branchTarget_misaligned {dst : BranchTo} (haligned : s.pc.toNat % 4 = 0)
    (hmisaligned : (s.branchTarget dst).toNat % 4 ≠ 0) : ∃ r, dst = .reg r := by
  cases dst with
  | reg r => exact ⟨r, rfl⟩
  | rel i16 => exact absurd (State.relativeTarget_aligned haligned i16) hmisaligned

theorem eq_j_or_eq_branchOf_of_isJump (hjump : isJump i = true) : (∃ dst, i = .j dst) ∨ ∃ c dst, i = branchOf c dst := by
  cases execForm i with
  | compute rA src mask value written row exec_eq => exact nomatch row.not_jump.symm.trans hjump
  | compare rA src extend written row exec_eq => exact nomatch row.not_jump.symm.trans hjump
  | jump dst eq_j => exact .inl ⟨dst, eq_j⟩
  | branch c dst eq_branchOf => exact .inr ⟨c, dst, eq_branchOf⟩
  | load n rA target row loads exec_eq => exact nomatch row.not_jump.symm.trans hjump
  | store n target rA row stores exec_eq => exact nomatch row.not_jump.symm.trans hjump

theorem exists_reg_of_exec_misaligned (haligned : s.pc.toNat % 4 = 0) (hexec : exec i s = .next t)
    (hmisaligned : t.pc.toNat % 4 ≠ 0) :
    ∃ r, t.pc = s.reg r ∧ (i = .j (.reg r) ∨ ∃ c, i = branchOf c (.reg r) ∧ testHolds c s.flags = true) := by
  cases hjump : isJump i with
  | false =>
    rw [(exec_completion hexec).pc_eq hjump] at hmisaligned
    exact absurd (State.pc_add_four_aligned haligned) hmisaligned
  | true =>
    obtain ⟨dst, rfl⟩ | ⟨c, dst, rfl⟩ := eq_j_or_eq_branchOf_of_isJump hjump
    · cases hexec
      obtain ⟨r, rfl⟩ := exists_reg_of_jumpTarget_misaligned haligned hmisaligned
      exact ⟨r, rfl, .inl rfl⟩
    · rw [exec_branchOf, branchIf_next_iff] at hexec
      obtain ⟨htaken, rfl⟩ | ⟨-, rfl⟩ := hexec
      · obtain ⟨r, rfl⟩ := exists_reg_of_branchTarget_misaligned haligned hmisaligned
        exact ⟨r, rfl, .inr ⟨c, rfl, htaken⟩⟩
      · exact absurd (State.pc_add_four_aligned haligned) hmisaligned

/-- Settles O33: a step that completes has fetched at an aligned `pc`. -/
theorem onlyRegisterJumpsMisalign : Obligations.OnlyRegisterJumpsMisalign := by
  intro s t hstep hmisaligned
  obtain ⟨i, hfetch, hexec⟩ := step_next_iff.mp hstep
  obtain ⟨haligned, -, hdecode⟩ := fetchInstr_ok_iff_decode.mp hfetch
  obtain ⟨r, hpc, hform⟩ := exists_reg_of_exec_misaligned haligned hexec hmisaligned
  exact ⟨i, r, hdecode, hpc, hform⟩

end Sys2Proof.Machine
end

section
/-! PROOFS. Runs (60_exceptions.md R231): a run is `advanceRun` iterated, a faulted run is a fixed point of it, and only the fault of a step makes one. -/

namespace Sys2Proof.Machine

variable {s u : State} {f : Fault} {r : Run}

theorem runSteps_eq_iterate : ∀ (k : Nat) (r : Run), runSteps k r = advanceRun^[k] r
  | 0, _ => rfl
  | k + 1, r => runSteps_eq_iterate k (advanceRun r)

theorem runSteps_add (k n : Nat) (r : Run) : runSteps (k + n) r = runSteps n (runSteps k r) := by
  simp only [runSteps_eq_iterate, Nat.add_comm k n, Function.iterate_add_apply]

theorem runSteps_succ (k : Nat) (r : Run) : runSteps (k + 1) r = advanceRun (runSteps k r) := runSteps_add k 1 r

theorem runSteps_faulted (n : Nat) (u : State) (f : Fault) : runSteps n (.faulted u f) = .faulted u f := by
  rw [runSteps_eq_iterate]
  exact Function.iterate_fixed rfl n

/-- A run is faulted after a step only if it was before, or the step is the fault. -/
theorem advanceRun_eq_faulted (h : advanceRun r = .faulted u f) : r = .faulted u f ∨ r = .running u ∧ step u = .fault f := by
  cases r with
  | running s =>
    cases hstep : step s with
    | next t => simp [advanceRun, hstep] at h
    | fault g =>
      simp only [advanceRun, hstep, Run.faulted.injEq] at h
      obtain ⟨rfl, rfl⟩ := h
      exact .inr ⟨rfl, hstep⟩
    | refused g => simp [advanceRun, hstep] at h
  | faulted s g => exact .inl h
  | refused s g => exact nomatch h

/-- The step that raised the fault of a run, by induction on the number of steps. -/
theorem exists_raised_of_runSteps_eq_faulted {k : Nat} (h : runSteps k (.running s) = .faulted u f) :
    step u = .fault f ∧ ∃ j, j < k ∧ runSteps j (.running s) = .running u := by
  induction k with
  | zero => exact nomatch h
  | succ k ih =>
    rw [runSteps_succ] at h
    obtain hbefore | ⟨hrunning, hstep⟩ := advanceRun_eq_faulted h
    · obtain ⟨hstep, j, hj, hrunning⟩ := ih hbefore
      exact ⟨hstep, j, hj.trans k.lt_succ_self, hrunning⟩
    · exact ⟨hstep, k, k.lt_succ_self, hrunning⟩

/-- Settles O54. -/
theorem faultedRunStays : Obligations.FaultedRunStays := by
  intro s u f k h
  obtain ⟨hstep, hrunning⟩ := exists_raised_of_runSteps_eq_faulted h
  exact ⟨hstep, hrunning, fun n => by rw [runSteps_add, h, runSteps_faulted]⟩

end Sys2Proof.Machine
end

section
/-! PROOFS. The end of a run (70_reset_and_hazards.md R275): completion by its first step, as `runUntil` looks for it. -/

namespace Sys2Proof.Machine

variable {s t : State} {endPc : Word} {k fuel : Nat}

/-! ## A run by its first step -/

theorem runSteps_succ_eq_running_iff :
    runSteps (k + 1) (.running s) = .running t ↔ ∃ u, step s = .next u ∧ runSteps k (.running u) = .running t := by
  cases hstep : step s with
  | next u => simp [runSteps, advanceRun, hstep]
  | fault f => simp [runSteps, advanceRun, hstep, runSteps_faulted]
  | refused r => exact absurd hstep (stepIsNeverRefused s r)

theorem completesAt_zero_iff : completesAt endPc 0 s t ↔ s = t ∧ t.pc = endPc := by
  simp [completesAt, runSteps]

/-- That END_PC has not been met before the end: not at the start, and not after the first step. -/
theorem completesAt_succ_iff :
    completesAt endPc (k + 1) s t ↔ s.pc ≠ endPc ∧ ∃ u, step s = .next u ∧ completesAt endPc k u t := by
  constructor
  · rintro ⟨hrun, hend, hfirst⟩
    obtain ⟨u, hstep, hrest⟩ := runSteps_succ_eq_running_iff.mp hrun
    exact ⟨hfirst 0 k.succ_pos s rfl, u, hstep, hrest, hend, fun j hj v hv =>
      hfirst (j + 1) (Nat.succ_lt_succ hj) v (runSteps_succ_eq_running_iff.mpr ⟨u, hstep, hv⟩)⟩
  · rintro ⟨hstart, u, hstep, hrest, hend, hfirst⟩
    refine ⟨runSteps_succ_eq_running_iff.mpr ⟨u, hstep, hrest⟩, hend, fun j hj v hv => ?_⟩
    cases j with
    | zero =>
      cases hv
      exact hstart
    | succ j =>
      obtain ⟨u', hstep', hv⟩ := runSteps_succ_eq_running_iff.mp hv
      cases hstep.symm.trans hstep'
      exact hfirst j (Nat.lt_of_succ_lt_succ hj) v hv

theorem completesAt_of_pc_eq (hpc : s.pc = endPc) : completesAt endPc k s t ↔ k = 0 ∧ s = t := by
  cases k with
  | zero =>
    simp only [completesAt_zero_iff, true_and, and_iff_left_iff_imp]
    rintro rfl
    exact hpc
  | succ k => simp [completesAt_succ_iff, hpc]

theorem not_completesAt_zero_of_pc_ne (hpc : s.pc ≠ endPc) : ¬ completesAt endPc 0 s t := by
  rw [completesAt_zero_iff]
  rintro ⟨rfl, hend⟩
  exact hpc hend

/-! ## The search for the end -/

theorem runUntil_succ_of_pc_eq (hpc : s.pc = endPc) : runUntil endPc (fuel + 1) s = .running s := if_pos hpc

theorem runUntil_succ_eq_running_iff (hpc : s.pc ≠ endPc) :
    runUntil endPc (fuel + 1) s = .running t ↔ ∃ u, step s = .next u ∧ runUntil endPc fuel u = .running t := by
  cases hstep : step s <;> simp [runUntil, hpc, hstep]

/-- A run that has not met END_PC at its start completes within the bound when it does so after its first step. -/
theorem exists_completesAt_le_succ_iff (hpc : s.pc ≠ endPc) :
    (∃ k, k ≤ fuel + 1 ∧ completesAt endPc k s t) ↔ ∃ u, step s = .next u ∧ ∃ k, k ≤ fuel ∧ completesAt endPc k u t := by
  constructor
  · rintro ⟨k, hk, hdone⟩
    cases k with
    | zero => exact absurd hdone (not_completesAt_zero_of_pc_ne hpc)
    | succ k =>
      obtain ⟨-, u, hstep, hrest⟩ := completesAt_succ_iff.mp hdone
      exact ⟨u, hstep, k, Nat.le_of_succ_le_succ hk, hrest⟩
  · rintro ⟨u, hstep, k, hk, hrest⟩
    exact ⟨k + 1, Nat.succ_le_succ hk, completesAt_succ_iff.mpr ⟨hpc, u, hstep, hrest⟩⟩

/-- Settles O55, by induction on the fuel: at END_PC both sides say that no step is taken, elsewhere both are about the run from the next state. -/
theorem runUntilFindsEnd : Obligations.RunUntilFindsEnd := by
  intro endPc fuel
  induction fuel with
  | zero =>
    intro s t
    simp only [Nat.le_zero, exists_eq_left, completesAt_zero_iff, runUntil, Run.running.injEq]
  | succ fuel ih =>
    intro s t
    by_cases hpc : s.pc = endPc
    · simp only [runUntil_succ_of_pc_eq hpc, completesAt_of_pc_eq hpc, Run.running.injEq]
      constructor
      · rintro ⟨rfl, -⟩
        exact ⟨0, Nat.zero_le _, rfl, rfl⟩
      · rintro ⟨-, -, -, rfl⟩
        exact ⟨rfl, hpc⟩
    · simp only [runUntil_succ_eq_running_iff hpc, exists_completesAt_le_succ_iff hpc, ← ih, ← and_assoc, exists_and_right]

/-- Settles O56, by induction on the number of steps: a run at END_PC takes none, and two runs from elsewhere share their first step. -/
theorem completionIsUnique : Obligations.CompletionIsUnique := by
  intro endPc s t t' k k' hdone hdone'
  induction k generalizing s k' with
  | zero =>
    obtain ⟨rfl, hpc⟩ := completesAt_zero_iff.mp hdone
    obtain ⟨rfl, rfl⟩ := (completesAt_of_pc_eq hpc).mp hdone'
    exact ⟨rfl, rfl⟩
  | succ k ih =>
    obtain ⟨hpc, u, hstep, hrest⟩ := completesAt_succ_iff.mp hdone
    cases k' with
    | zero => exact absurd hdone' (not_completesAt_zero_of_pc_ne hpc)
    | succ k' =>
      obtain ⟨-, u', hstep', hrest'⟩ := completesAt_succ_iff.mp hdone'
      cases hstep.symm.trans hstep'
      obtain ⟨rfl, rfl⟩ := ih u k' hrest hrest'
      exact ⟨rfl, rfl⟩

end Sys2Proof.Machine
end

section
/-! PROOFS. What a run starts from (70_reset_and_hazards.md R271, R272): the reset state, and an instruction placed where the next fetch reads (log 24). -/

namespace Sys2Proof.Machine

variable {s : State} {w : Word} {i : Instr}

/-! ## Reset -/

/-- The default parameters are a legal choice: the whole address space is one range of it. -/
theorem defaultParams_wf : defaultParams.wf = true := by
  have hregions : defaultParams.memValid.all Region.wf = true := by decide
  simp only [Params.wf, Bool.and_eq_true]
  exact ⟨defaultOpMap_wf, hregions⟩

theorem hasBytes_defaultParams_resetPc : hasBytes defaultParams defaultResetPc 4 = true := by decide

/-- Settles O19. -/
theorem resetMeetsInvariant : Obligations.ResetMeetsInvariant :=
  ⟨⟨State.reset_mem_wf, defaultParams_wf⟩, bootOk_iff.mpr ⟨rfl, hasBytes_defaultParams_resetPc⟩⟩

/-! ## A placed word -/

theorem State.memRead_memWrite_word (hm : s.mem.wf = true) (a v : Word) : (s.memWrite a 4 v).memRead a 4 = v := by
  rw [State.memRead_memWrite_same hm (by decide), Nat.mod_eq_of_lt v.isLt, BitVec.ofNat_toNat, BitVec.setWidth_eq]

theorem hasBytes_of_region_mem {p : Params} {a : Word} {n : Nat} (hfits : a.toNat + n ≤ 2 ^ 32)
    (hregion : { base := a.toNat, size := n } ∈ p.memValid) : hasBytes p a n = true := by
  refine (hasBytes_iff (Nat.le_of_add_left_le hfits)).mpr fun x hx => List.any_eq_true.mpr ⟨_, hregion, ?_⟩
  simpa [inRegion] using (inBytes_iff_of_noWrap hfits).mp hx

theorem placeWord_params (s : State) (w : Word) :
    (placeWord s w).params =
      if hasBytes s.params (placeWord s w).pc 4 then s.params
      else { s.params with memValid := { base := (placeWord s w).pc.toNat, size := 4 } :: s.params.memValid } := rfl

theorem placeWord_opMap (s : State) (w : Word) : (placeWord s w).params.opMap = s.params.opMap := by
  rw [placeWord_params]
  split <;> rfl

theorem placeWord_pc_aligned (s : State) (w : Word) : (placeWord s w).pc.toNat % 4 = 0 := by
  rw [placeWord_pc, BitVec.toNat_ofNat]
  omega

/-- The four bytes at the placed word's address are in MEM_VALID: they were, or they are the range that was added. -/
theorem placeWord_hasBytes (s : State) (w : Word) : hasBytes (placeWord s w).params (placeWord s w).pc 4 = true := by
  by_cases hvalid : hasBytes s.params (placeWord s w).pc 4 = true
  · rwa [placeWord_params, if_pos hvalid]
  · have hfits : (placeWord s w).pc.toNat + 4 ≤ 2 ^ 32 := add_size_le_of_aligned dvd_rfl (placeWord_pc_aligned s w)
    rw [placeWord_params, if_neg hvalid]
    exact hasBytes_of_region_mem hfits List.mem_cons_self

theorem placeWord_memRead (hm : s.mem.wf = true) (w : Word) : (placeWord s w).memRead (placeWord s w).pc 4 = w :=
  State.memRead_memWrite_word (s := { s with pc := (placeWord s w).pc, params := (placeWord s w).params }) hm _ w

/-- A word placed in a canonical memory is the next fetch's, so its instruction is the next step's. -/
theorem step_placeWord (hm : s.mem.wf = true) (hdecode : decode s.params.opMap w = .ok i) :
    step (placeWord s w) = exec i (placeWord s w) := by
  refine stepRunsDecodedInstruction _ i (placeWord_pc_aligned s w) (placeWord_hasBytes s w) ?_
  rwa [placeWord_opMap, placeWord_memRead hm]

theorem withFetchWord_toNat (s : State) (w : Word) : s.withFetchWord 32 w.toNat = placeWord s w := by
  rw [State.withFetchWord, Nat.mod_eq_of_lt w.isLt, BitVec.ofNat_toNat, BitVec.setWidth_eq]

/-- Settles O17: the word of `i` is placed, and it decodes to `i` under a legal OPMAP. -/
theorem placedInstructionRuns : Obligations.PlacedInstructionRuns := by
  rintro s i ⟨hm, hparams⟩
  have hopMap : s.params.opMap.wf = true := (Bool.and_eq_true_iff.mp hparams).1
  rw [withFetchWord_toNat]
  exact ⟨step_placeWord hm (decodeOfEncode _ hopMap i), placeWord_regs s _, placeWord_flags s _⟩

end Sys2Proof.Machine
end

section
/-! PROOFS. Words written out from the format tables (95_test_vectors.md section 2; 30_encoding.md R81, R82, R84). -/

namespace Sys2Proof.Machine

variable {i : Instr} {w : Word}

/-- A word with zeros in its unused fields is checked in the encoder, field by field; the round trip decodes it. -/
theorem decode_defaultOpMap_of_encode_eq (hword : encode defaultOpMap i = w) : decode defaultOpMap w = .ok i :=
  hword ▸ decodeOfEncode defaultOpMap defaultOpMap_wf i

/-- Settles O5: each word is the encoder's word of its instruction (95_test_vectors.md section 2). -/
theorem specWordsDecode : Obligations.SpecWordsDecode := by
  have hadd : encode defaultOpMap (.add 1 (.imm 5)) = 0b000000000000101_1_00000_00001_011100 := rfl
  have hand : encode defaultOpMap (.and 1 (.reg 2)) = 0b000000000000000_0_00010_00001_100010 := rfl
  have hj : encode defaultOpMap (.j (.rel 0xFFFFF)) = 0b11111111111111111111_1_00000_101110 := rfl
  have hbnz : encode defaultOpMap (.bnz (.rel 0xFFFD)) = 0b1111111111111101_1_0_001_00000_110010 := rfl
  have hcmpu : encode defaultOpMap (.cmpu 1 (.imm 0x7FFF)) = 0b111111111111111_1_00000_00001_110000 := rfl
  have hlw : encode defaultOpMap (.lw 1 (.disp 31 0x7FFC)) = 0b111111111111100_1_11111_00001_000001 := rfl
  have hstw : encode defaultOpMap (.stw (.disp 31 0x7FFC) 30) = 0b111111111111100_1_11111_11110_000100 := rfl
  exact ⟨decode_defaultOpMap_of_encode_eq hadd, decode_defaultOpMap_of_encode_eq hand, decode_defaultOpMap_of_encode_eq hj,
    decode_defaultOpMap_of_encode_eq hbnz, decode_defaultOpMap_of_encode_eq hcmpu, decode_defaultOpMap_of_encode_eq hlw,
    decode_defaultOpMap_of_encode_eq hstw⟩

end Sys2Proof.Machine
end
